-- ==== Sys2Proof/Word.lean ====
section
/-! DEFINITION. The word types of the PLL frequency planner. -/

namespace Sys2Proof

/-- A 32-bit configuration word (00_scope.md R3, WORD_W). -/
abbrev Word := BitVec 32

/-- One byte of a transport write (20_memory.md R62). -/
abbrev Byte := BitVec 8

/-- A 72-bit command word CW (30_encoding.md R80). -/
abbrev CommandWord := BitVec 72

/-- The width in bits of ARG, the operand of a command word (30_encoding.md R80, R82). -/
abbrev argW : Nat := 64

/-- The width in bits of RES (10_state.md R34). -/
abbrev resW : Nat := 64

/-- An address of the word index space, 0 to 5 (20_memory.md R60): the values 6 and 7 are never
produced, so the type does not hold them. -/
abbrev WordIndex := Fin 6

end Sys2Proof
end

