-- ==== Sys2Proof/Config.lean ====
section
/-! DEFINITION. The fixed constants (R3), the parameters with their decided values (R4, R24, R90), what a
well-formed set of parameters is (R4, R91), and the free value of the environment (R182). -/

namespace Sys2Proof

/-! ### Constants (00_scope.md R3) -/

namespace Const

/-- F_MIN, the lowest admitted target frequency in hertz. -/
def fMin : Nat := 40000000
/-- F_MAX, the highest admitted target frequency in hertz. -/
def fMax : Nat := 4400000000
/-- VCO_MIN, the lower end of the VCO range, inclusive. -/
def vcoMin : Nat := 2200000000
/-- VCO_MAX, the upper end of the VCO range, inclusive. -/
def vcoMax : Nat := 4400000000
/-- DIVEXP_MAX, the largest divider exponent. -/
def divExpMax : Nat := 6
/-- NMIN_LOW, the least feedback integer with the Low [4/5] prescaler. -/
def nminLow : Nat := 23
/-- NMIN_HIGH, the least feedback integer with the High [8/9] prescaler. -/
def nminHigh : Nat := 75
/-- INT_MAX, the greatest feedback integer. -/
def intMax : Nat := 65535
/-- R_MAX, the greatest reference divisor. -/
def rMax : Nat := 1023
/-- BS_MIN, the least band-select value. -/
def bsMin : Nat := 1
/-- BS_MAX, the greatest band-select value. -/
def bsMax : Nat := 255

end Const

/-! ### Closed sets of names -/

/-- REFSRC: `reference_source` (10_state.md R26). -/
inductive RefSource where
  | internal
  | external
deriving DecidableEq, Repr

/-- The prescaler mode (40_planner.md R123): Low [4/5] or High [8/9]. -/
inductive Prescaler where
  | low
  | high
deriving DecidableEq, Repr

/-- The answer of the transport to one write (43_transport.md R182). -/
inductive TxAnswer where
  | ok
  | fail
deriving DecidableEq, Repr, Inhabited

/-- ROUND_TIE: where a tie of `round` goes (00_scope.md R4, R7; 92_eei_decisions.md D8). -/
inductive RoundTie where
  | halfUp
  | halfEven
deriving DecidableEq, Repr

/-! ### LAYOUT (30_encoding.md R90, R91) -/

/-- The place of one dynamic field: bits `hi` down to `lo` of configuration word `word`. -/
structure BitField where
  word : WordIndex
  hi : Nat
  lo : Nat
deriving DecidableEq, Repr

/-- The number of bits of a field. -/
def BitField.width (f : BitField) : Nat := f.hi + 1 - f.lo

/-- R91 (b) and (d): the field lies wholly inside one word, above the index bits [2:0]. -/
abbrev BitField.inWord (f : BitField) : Prop := 3 ≤ f.lo ∧ f.lo ≤ f.hi ∧ f.hi < 32

/-- Two fields share no bit: they stand in different words, or one lies above the other. -/
abbrev BitField.disjoint (f g : BitField) : Prop := f.word ≠ g.word ∨ f.hi < g.lo ∨ g.hi < f.lo

/-- LAYOUT: the place of every dynamic field. The defaults are the rows marked "dyn" of R90. -/
structure Layout where
  int : BitField := ⟨0, 30, 15⟩
  presc : BitField := ⟨1, 27, 27⟩
  rcnt : BitField := ⟨2, 23, 14⟩
  fix2 : BitField := ⟨2, 13, 6⟩
  divsel : BitField := ⟨4, 22, 20⟩
  bandsel : BitField := ⟨4, 19, 12⟩
  rfen : BitField := ⟨4, 5, 5⟩
  rfpwr : BitField := ⟨4, 4, 3⟩
deriving DecidableEq, Repr

/-- The dynamic fields of a layout. -/
def Layout.fields (l : Layout) : List BitField :=
  [l.int, l.presc, l.rcnt, l.fix2, l.divsel, l.bandsel, l.rfen, l.rfpwr]

/-- R91: what any replacement of R90 must meet: the widths of (a), of which (e) is a part, then (b), (d) and (c). FIX2
may have any width that holds FIX2_VALUE: see `Config.Wf`. -/
structure Layout.Wf (l : Layout) (pwrW : Nat) : Prop where
  inWord : ∀ f ∈ l.fields, f.inWord
  disjoint : l.fields.Pairwise BitField.disjoint
  int : l.int.width = 16
  presc : l.presc.width = 1
  rcnt : l.rcnt.width = 10
  divsel : l.divsel.width = 3
  bandsel : l.bandsel.width = 8
  rfen : l.rfen.width = 1
  rfpwr : l.rfpwr.width = pwrW

/-! ### The parameters (00_scope.md R4) -/

/-- The parameters of the block, each with its decided value as default. The reset values are numbers; `Config.Wf` says
that each fits its register. MERGE_MODE is no parameter: it is fixed at clear-then-OR (92_eei_decisions.md D4). -/
structure Config where
  /-- FREQ_W, the width in bits of a frequency register (R5) -/
  freqW : Nat := 64
  /-- PWR_W, the width in bits of PWR (10_state.md R28) -/
  pwrW : Nat := 2
  /-- PRESC_THRESHOLD -/
  prescThreshold : Nat := 3600000000
  /-- MAX_PFD -/
  maxPfd : Nat := 125000
  /-- ROUND_TIE -/
  roundTie : RoundTie := .halfUp
  /-- F_DEFAULT -/
  fDefault : Nat := 100000000
  /-- STEP_DEFAULT -/
  stepDefault : Nat := 1000000
  /-- REF_DEFAULT -/
  refDefault : Nat := 10000000
  /-- SRC_DEFAULT -/
  srcDefault : RefSource := .internal
  /-- EN_DEFAULT -/
  enDefault : Bool := true
  /-- PWR_DEFAULT -/
  pwrDefault : Nat := 3
  /-- LAYOUT -/
  layout : Layout := {}
  /-- INIT_WORD[0..5] (10_state.md R24) -/
  initWord : Vector Word 6 :=
    #v[0x00000000, 0x00008011, 0x00002FC2, 0x00600003, 0x00000004, 0x00580005]
  /-- FIX2_VALUE -/
  fix2Value : Nat := 0xBF
deriving DecidableEq, Repr

/-- The decided configuration: every parameter at its value of R4. -/
def Config.decided : Config := {}

/-- The constraints on the parameters: those of R4, R91, the reset invariant of STEPSIZE (10_state.md R30), the index
bits of INIT_WORD (10_state.md R22), and that the numbers fit the registers that hold them: every target in range fits a
frequency register (R5, R9), a frequency register fits RES (10_state.md R34), and the reset values fit theirs. -/
structure Config.Wf (c : Config) : Prop where
  ref_pos : 0 < c.refDefault
  maxPfd_pos : 0 < c.maxPfd
  threshold : Const.fMin ≤ c.prescThreshold
  layout : c.layout.Wf c.pwrW
  fix2_fits : c.fix2Value < 2 ^ c.layout.fix2.width
  step_pos : 0 < c.stepDefault
  step_divides : c.refDefault % c.stepDefault = 0
  step_ratio : c.refDefault / c.stepDefault ≤ Const.rMax
  index : ∀ i : WordIndex, (c.initWord[i]).extractLsb' 0 3 = BitVec.ofNat 3 i
  target_fits : Const.fMax < 2 ^ c.freqW
  response_fits : c.freqW ≤ resW
  ref_fits : c.refDefault < 2 ^ c.freqW
  freq_fits : c.fDefault < 2 ^ c.freqW
  pwr_fits : c.pwrDefault < 2 ^ c.pwrW

/-- FREE VALUE (43_transport.md R182, 93_implementation_defined.md U7): the transport's answer to its k-th
write beyond those whose answers the state lists. It has no body: every answer sequence is allowed. -/
opaque Config.freeAnswer : Nat → TxAnswer

end Sys2Proof
end

