-- ==== Sys2Proof/Syntax.lean ====
section
/-! DEFINITION. The instructions: one constructor for each row of spec/opcode_table.json, four commands
(30_encoding.md R81) and six configuration words (30_encoding.md R92 to R97). -/

namespace Sys2Proof

/-- The fields of configuration word 0 (R92), less its index bits. -/
structure Cfg0 where
  rsv31 : BitVec 1
  int : BitVec 16
  frac : BitVec 12
deriving DecidableEq, Repr

/-- The fields of configuration word 1 (R93), less its index bits. -/
structure Cfg1 where
  rsv31_29 : BitVec 3
  phadj : BitVec 1
  presc : BitVec 1
  phase : BitVec 12
  mod : BitVec 12
deriving DecidableEq, Repr

/-- The fields of configuration word 2 (R94), less its index bits. -/
structure Cfg2 where
  rsv31 : BitVec 1
  noise : BitVec 2
  muxout : BitVec 3
  refdbl : BitVec 1
  rdiv2 : BitVec 1
  rcnt : BitVec 10
  fix2 : BitVec 8
  pdown : BitVec 1
  cp3st : BitVec 1
  cntrst : BitVec 1
deriving DecidableEq, Repr

/-- The fields of configuration word 3 (R95), less its index bits. -/
structure Cfg3 where
  rsv31_24 : BitVec 8
  bscm : BitVec 1
  abp : BitVec 1
  chgcan : BitVec 1
  rsv20_19 : BitVec 2
  csr : BitVec 1
  rsv17 : BitVec 1
  clkdivmode : BitVec 2
  clkdiv : BitVec 12
deriving DecidableEq, Repr

/-- The fields of configuration word 4 (R96), less its index bits. -/
structure Cfg4 where
  rsv31_24 : BitVec 8
  fbsel : BitVec 1
  divsel : BitVec 3
  bandsel : BitVec 8
  vcopd : BitVec 1
  mtld : BitVec 1
  auxsel : BitVec 1
  auxen : BitVec 1
  auxpwr : BitVec 2
  rfen : BitVec 1
  rfpwr : BitVec 2
deriving DecidableEq, Repr

/-- The fields of configuration word 5 (R97), less its index bits. -/
structure Cfg5 where
  rsv31_24 : BitVec 8
  ldpin : BitVec 2
  rsv21 : BitVec 1
  rsv20_19 : BitVec 2
  rsv18_3 : BitVec 16
deriving DecidableEq, Repr

/-- An instruction. The operand of a command is a number of hertz (R5, R82). -/
inductive Instr where
  /-- `set_frequency(target_frequency)` (44_commands.md R190) -/
  | setf (f : Nat)
  /-- `set_frequency_optimally(target_frequency)` (R191) -/
  | setfopt (f : Nat)
  /-- `set_stepsize(stepsize)` (R192) -/
  | setstep (hz : Nat)
  /-- `get_optimal_stepsize(target_frequency)` (R193) -/
  | getoptstep (f : Nat)
  /-- configuration word 0 -/
  | cfg0 (c : Cfg0)
  /-- configuration word 1 -/
  | cfg1 (c : Cfg1)
  /-- configuration word 2 -/
  | cfg2 (c : Cfg2)
  /-- configuration word 3 -/
  | cfg3 (c : Cfg3)
  /-- configuration word 4 -/
  | cfg4 (c : Cfg4)
  /-- configuration word 5 -/
  | cfg5 (c : Cfg5)
deriving DecidableEq, Repr

end Sys2Proof
end

