-- ==== Sys2Proof/WellFormed.lean ====
section
/-! DEFINITION. Which instruction terms have an encoding. -/

namespace Sys2Proof

/-- ARG is an unsigned 64-bit number of hertz (30_encoding.md R80, R82): a command's operand must fit it, and
every number that fits is a well-formed operand. A configuration word is well-formed whatever its fields hold:
the encoder neither checks nor forces a static bit (R99). -/
def Instr.wf : Instr → Bool
  | .setf f => decide (f < 2 ^ argW)
  | .setfopt f => decide (f < 2 ^ argW)
  | .setstep hz => decide (hz < 2 ^ argW)
  | .getoptstep f => decide (f < 2 ^ argW)
  | .cfg0 _ => true
  | .cfg1 _ => true
  | .cfg2 _ => true
  | .cfg3 _ => true
  | .cfg4 _ => true
  | .cfg5 _ => true

end Sys2Proof
end

