-- ==== Sys2Proof/Decode.lean ====
section
/-! DEFINITION. Frames (what is presented to the machine), their bytes, the decoder, the encoder and the opcode
table (30_encoding.md). -/

namespace Sys2Proof

/-- What can be presented at a port: a 72-bit command word at the command port (R80) or a 32-bit
configuration word at the transport port (R100). -/
inductive Frame where
  | command (cw : CommandWord)
  | config (w : Word)
deriving DecidableEq, Repr

/-- Why a frame, or a list of bytes, names no instruction. -/
inductive DecodeError where
  /-- the opcode is none of 0x01 to 0x04 (R83) -/
  | badOpcode (opc : BitVec 8)
  /-- the index bits are 6 or 7, which no configuration word has (20_memory.md R60) -/
  | badIndex (idx : BitVec 3)
  /-- the bytes are neither the nine of a command word nor the four of a configuration word -/
  | badLength (n : Nat)
deriving DecidableEq, Repr

/-! ### Fields -/

/-- `w[hi:lo]` (00_scope.md section 8), with the width `hi - lo + 1` given. -/
abbrev slice {n : Nat} (w : BitVec n) (lo width : Nat) : BitVec width := w.extractLsb' lo width

/-- OPC, bits 71 to 64 of a command word (R80). -/
def opcodeOf (cw : CommandWord) : BitVec 8 := slice cw 64 8

/-- ARG, bits 63 to 0 of a command word, as an unsigned integer (R80, R82). -/
def argOf (cw : CommandWord) : Nat := (slice cw 0 64).toNat

/-- The fields of word 0 (R92). -/
def cfg0Of (w : Word) : Cfg0 :=
  { rsv31 := slice w 31 1, int := slice w 15 16, frac := slice w 3 12 }

/-- The fields of word 1 (R93). -/
def cfg1Of (w : Word) : Cfg1 :=
  { rsv31_29 := slice w 29 3, phadj := slice w 28 1, presc := slice w 27 1, phase := slice w 15 12,
    mod := slice w 3 12 }

/-- The fields of word 2 (R94). -/
def cfg2Of (w : Word) : Cfg2 :=
  { rsv31 := slice w 31 1, noise := slice w 29 2, muxout := slice w 26 3, refdbl := slice w 25 1,
    rdiv2 := slice w 24 1, rcnt := slice w 14 10, fix2 := slice w 6 8, pdown := slice w 5 1,
    cp3st := slice w 4 1, cntrst := slice w 3 1 }

/-- The fields of word 3 (R95). -/
def cfg3Of (w : Word) : Cfg3 :=
  { rsv31_24 := slice w 24 8, bscm := slice w 23 1, abp := slice w 22 1, chgcan := slice w 21 1,
    rsv20_19 := slice w 19 2, csr := slice w 18 1, rsv17 := slice w 17 1, clkdivmode := slice w 15 2,
    clkdiv := slice w 3 12 }

/-- The fields of word 4 (R96). -/
def cfg4Of (w : Word) : Cfg4 :=
  { rsv31_24 := slice w 24 8, fbsel := slice w 23 1, divsel := slice w 20 3, bandsel := slice w 12 8,
    vcopd := slice w 11 1, mtld := slice w 10 1, auxsel := slice w 9 1, auxen := slice w 8 1,
    auxpwr := slice w 6 2, rfen := slice w 5 1, rfpwr := slice w 3 2 }

/-- The fields of word 5 (R97). -/
def cfg5Of (w : Word) : Cfg5 :=
  { rsv31_24 := slice w 24 8, ldpin := slice w 22 2, rsv21 := slice w 21 1, rsv20_19 := slice w 19 2,
    rsv18_3 := slice w 3 16 }

/-! ### The decoder -/

/-- A command word (R81, R83). -/
def decodeCommand (cw : CommandWord) : Except DecodeError Instr :=
  if opcodeOf cw = 0x01 then .ok (.setf (argOf cw))
  else if opcodeOf cw = 0x02 then .ok (.setfopt (argOf cw))
  else if opcodeOf cw = 0x03 then .ok (.setstep (argOf cw))
  else if opcodeOf cw = 0x04 then .ok (.getoptstep (argOf cw))
  else .error (.badOpcode (opcodeOf cw))

/-- A configuration word, told by its index bits [2:0] (R90, R101). -/
def decodeConfig (w : Word) : Except DecodeError Instr :=
  if slice w 0 3 = 0 then .ok (.cfg0 (cfg0Of w))
  else if slice w 0 3 = 1 then .ok (.cfg1 (cfg1Of w))
  else if slice w 0 3 = 2 then .ok (.cfg2 (cfg2Of w))
  else if slice w 0 3 = 3 then .ok (.cfg3 (cfg3Of w))
  else if slice w 0 3 = 4 then .ok (.cfg4 (cfg4Of w))
  else if slice w 0 3 = 5 then .ok (.cfg5 (cfg5Of w))
  else .error (.badIndex (slice w 0 3))

/-- The instruction a frame stands for. -/
def decode : Frame → Except DecodeError Instr
  | .command cw => decodeCommand cw
  | .config w => decodeConfig w

/-! ### The encoder -/

/-- A command word from its opcode and operand (R80). -/
def commandWord (opc : BitVec 8) (arg : Nat) : CommandWord :=
  (opc ++ BitVec.ofNat 64 arg).cast rfl

/-- Word 0 from its fields (R92). -/
def Cfg0.word (c : Cfg0) : Word := (c.rsv31 ++ c.int ++ c.frac ++ 0#3).cast rfl

/-- Word 1 from its fields (R93). -/
def Cfg1.word (c : Cfg1) : Word :=
  (c.rsv31_29 ++ c.phadj ++ c.presc ++ c.phase ++ c.mod ++ 1#3).cast rfl

/-- Word 2 from its fields (R94). -/
def Cfg2.word (c : Cfg2) : Word :=
  (c.rsv31 ++ c.noise ++ c.muxout ++ c.refdbl ++ c.rdiv2 ++ c.rcnt ++ c.fix2 ++ c.pdown ++ c.cp3st ++
    c.cntrst ++ 2#3).cast rfl

/-- Word 3 from its fields (R95). -/
def Cfg3.word (c : Cfg3) : Word :=
  (c.rsv31_24 ++ c.bscm ++ c.abp ++ c.chgcan ++ c.rsv20_19 ++ c.csr ++ c.rsv17 ++ c.clkdivmode ++
    c.clkdiv ++ 3#3).cast rfl

/-- Word 4 from its fields (R96). -/
def Cfg4.word (c : Cfg4) : Word :=
  (c.rsv31_24 ++ c.fbsel ++ c.divsel ++ c.bandsel ++ c.vcopd ++ c.mtld ++ c.auxsel ++ c.auxen ++
    c.auxpwr ++ c.rfen ++ c.rfpwr ++ 4#3).cast rfl

/-- Word 5 from its fields (R97). -/
def Cfg5.word (c : Cfg5) : Word :=
  (c.rsv31_24 ++ c.ldpin ++ c.rsv21 ++ c.rsv20_19 ++ c.rsv18_3 ++ 5#3).cast rfl

/-- The frame of an instruction (R81, R92 to R97). -/
def encode : Instr → Frame
  | .setf f => .command (commandWord 0x01 f)
  | .setfopt f => .command (commandWord 0x02 f)
  | .setstep hz => .command (commandWord 0x03 hz)
  | .getoptstep f => .command (commandWord 0x04 f)
  | .cfg0 c => .config c.word
  | .cfg1 c => .config c.word
  | .cfg2 c => .config c.word
  | .cfg3 c => .config c.word
  | .cfg4 c => .config c.word
  | .cfg5 c => .config c.word

/-! ### Bytes -/

/-- The four bytes of a transport write, most significant first (20_memory.md R62). -/
def wordBytes (w : Word) : List Byte := [slice w 24 8, slice w 16 8, slice w 8 8, slice w 0 8]

/-- The number whose bytes, most significant first, are given. -/
def bytesToNat (bs : List Byte) : Nat := bs.foldl (fun a b => 256 * a + b.toNat) 0

/-- The frame that a list of bytes is: four bytes are a configuration word, most significant first (R62), nine
a command word. DESIGN CHOICE (log 4): the spec gives a command word no byte order; it is read here in the
order of R62. -/
def frameOfBytes (bs : List Byte) : Except DecodeError Frame :=
  if bs.length = 4 then .ok (.config (BitVec.ofNat 32 (bytesToNat bs)))
  else if bs.length = 9 then .ok (.command (BitVec.ofNat 72 (bytesToNat bs)))
  else .error (.badLength bs.length)

/-- The instruction that a list of bytes stands for; total on any bytes. -/
def decodeBytes (bs : List Byte) : Except DecodeError Instr :=
  match frameOfBytes bs with
  | .ok fr => decode fr
  | .error e => .error e

/-! ### Assembler syntax (R85): one command per line, `MNEMONIC operand`, a comment from `;` to the end.
DESIGN CHOICE (log 15): blanks and tabs separate the words, and `_` may stand anywhere among the digits -/

/-- A decimal number of hertz, its digit groups separated by `_`. -/
def readNumber (cs : List Char) : Option Nat :=
  if cs.any Char.isDigit then
    cs.foldl (fun acc ch => acc.bind fun a =>
      if ch = '_' then some a
      else if ch.isDigit then some (10 * a + (ch.toNat - '0'.toNat)) else none) (some 0)
  else none

/-- The command with a mnemonic, if it is one of the four of R81. There are no pseudo-instructions (R86). -/
def commandNamed (name : List Char) (arg : Nat) : Option Instr :=
  if name = ['S', 'E', 'T', 'F'] then some (.setf arg)
  else if name = ['S', 'E', 'T', 'F', 'O', 'P', 'T'] then some (.setfopt arg)
  else if name = ['S', 'E', 'T', 'S', 'T', 'E', 'P'] then some (.setstep arg)
  else if name = ['G', 'E', 'T', 'O', 'P', 'T', 'S', 'T', 'E', 'P'] then some (.getoptstep arg)
  else none

/-- The words of a line, less its comment. -/
def lineWords (line : List Char) : List (List Char) :=
  ((line.takeWhile (· ≠ ';')).splitOnP fun ch => ch = ' ' || ch = '\t').filter (· ≠ [])

/-- The command that a line assembles to: `none` where the line is no command or its operand does not fit ARG. -/
def assembleLine (line : List Char) : Option Instr :=
  match lineWords line with
  | [name, number] =>
    match readNumber number with
    | some arg => if arg < 2 ^ argW then commandNamed name arg else none
    | none => none
  | _ => none

/-! ### The opcode table -/

/-- The frame with the bits `w` of a row of `nbits` bits: the rows of 32 bits are configuration words, the rows
of 72 bits command words (R101). DESIGN CHOICE (log 10): a row is told by its width. -/
def frameOfTableWord (nbits w : Nat) : Frame :=
  if nbits ≤ 32 then .config (BitVec.ofNat 32 w) else .command (BitVec.ofNat 72 w)

/-- The instruction the decoder reads from a word of the opcode table. -/
def decodeTableWord (nbits w : Nat) : Option Instr :=
  match decode (frameOfTableWord nbits w) with
  | .ok i => some i
  | .error _ => none

/-- One row of the opcode table (R101): a word of the row's format is of this row when its bits under `mask` are
`bits`. -/
structure OpRow where
  mnemonic : String
  width : Nat
  bits : Nat
  mask : Nat
deriving DecidableEq, Repr

/-- The opcode table, copied from spec/opcode_table.json. -/
def opcodeTable : List OpRow :=
  [⟨"SETF", 72, 0x010000000000000000, 0xFF0000000000000000⟩,
   ⟨"SETFOPT", 72, 0x020000000000000000, 0xFF0000000000000000⟩,
   ⟨"SETSTEP", 72, 0x030000000000000000, 0xFF0000000000000000⟩,
   ⟨"GETOPTSTEP", 72, 0x040000000000000000, 0xFF0000000000000000⟩,
   ⟨"CFG0", 32, 0x00000000, 0x00000007⟩,
   ⟨"CFG1", 32, 0x00000001, 0x00000007⟩,
   ⟨"CFG2", 32, 0x00000002, 0x00000007⟩,
   ⟨"CFG3", 32, 0x00000003, 0x00000007⟩,
   ⟨"CFG4", 32, 0x00000004, 0x00000007⟩,
   ⟨"CFG5", 32, 0x00000005, 0x00000007⟩]

/-- The rows of the table that a frame matches. -/
def rowsOf : Frame → List OpRow
  | .command cw => opcodeTable.filter fun r => r.width = 72 && decide (cw.toNat &&& r.mask = r.bits)
  | .config w => opcodeTable.filter fun r => r.width = 32 && decide (w.toNat &&& r.mask = r.bits)

/-- An instruction's mnemonic, as the table spells it. -/
def Instr.mnemonic : Instr → String
  | .setf _ => "SETF"
  | .setfopt _ => "SETFOPT"
  | .setstep _ => "SETSTEP"
  | .getoptstep _ => "GETOPTSTEP"
  | .cfg0 _ => "CFG0"
  | .cfg1 _ => "CFG1"
  | .cfg2 _ => "CFG2"
  | .cfg3 _ => "CFG3"
  | .cfg4 _ => "CFG4"
  | .cfg5 _ => "CFG5"

end Sys2Proof
end

