-- ==== Sys2Proof/Machine/State.lean ====
section
/-! DEFINITION. The state of the planner (10_state.md), its reset (R45, R240, R241), and the reasons a step stops. -/

namespace Sys2Proof.Machine

open Sys2Proof

/-- The reasons a step stops with a fault. -/
inductive Fault where
  /-- Raised by a transport write that is never answered: the command has no further step (43_transport.md R184,
  93_implementation_defined.md U8; log 5). Safe: the model goes on nowhere where the hardware hangs. -/
  | transportSilent
deriving DecidableEq, Repr

/-- The reasons a step has no meaning. -/
inductive Refusal where
  /-- Raised by `exec` for an instruction that has no meaning yet. Safe: nothing is claimed of it. -/
  | notModelled (mnemonic : String)
  /-- Raised by `step` for a configuration word whose index bits are 6 or 7, which are never produced
  (20_memory.md R60, 93_implementation_defined.md V3; log 6) and are no instruction. Safe: nothing is claimed of it. -/
  | unusedWordIndex (idx : BitVec 3)
deriving DecidableEq, Repr

/-- ERRKIND (60_exceptions.md R211), less the code 0 "(none)". -/
inductive ErrKind where
  | rangeError
  | gridError
  | ratioError
  | hardwareError
  | illegalCommand
deriving DecidableEq, Repr

/-- ERRCAUSE (60_exceptions.md R212), less the code 0 "NONE". -/
inductive Cause where
  | fBelowMin
  | fAboveMax
  | noDivider
  | stepZero
  | ratioNotInteger
  | ratioTooLarge
  | notOnGrid
  | intBelowNmin
  | intAboveMax
  | optNoCandidate
  | txFail
  | badOpcode
deriving DecidableEq, Repr

/-- One entry of TXLOG (10_state.md R42). -/
structure TxEntry where
  index : WordIndex
  value : Word
  answer : TxAnswer
deriving DecidableEq, Repr

/-- What the transport does with a write that the environment has settled beforehand: answers it, or never
does (43_transport.md R182, R184). -/
inductive TxReply where
  | answers (a : TxAnswer)
  | silent
deriving DecidableEq, Repr

/-- The state of one synthesizer instance, for the widths FREQ_W and PWR_W (00_scope.md R4); `State` alone is the state
for their decided values. -/
structure State (freqW : Nat := 64) (pwrW : Nat := 2) where
  /-- OUTFREQ (R29) -/
  outFreq : BitVec freqW
  /-- STEPSIZE (R30) -/
  stepSize : BitVec freqW
  /-- REFFREQ (R25) -/
  refFreq : BitVec freqW
  /-- REFSRC (R26) -/
  refSrc : RefSource
  /-- OUTEN (R27) -/
  outEn : Bool
  /-- PWR (R28) -/
  pwr : BitVec pwrW
  /-- REGS[0..5] (R21) -/
  regs : Vector Word 6
  /-- PLANV (R31) -/
  planV : Bool
  /-- P_DIVEXP (R31) -/
  pDivExp : BitVec 3
  /-- P_PRESC (R31) -/
  pPresc : Prescaler
  /-- P_INT (R31) -/
  pInt : BitVec 16
  /-- P_R (R31) -/
  pR : BitVec 10
  /-- P_BS (R31) -/
  pBs : BitVec 8
  /-- SNAP (R33) -/
  snap : Bool
  /-- BSCLAMP (R33) -/
  bsClamp : Bool
  /-- RES (R34) -/
  res : BitVec 64
  /-- RESREM (R34) -/
  resRem : BitVec 10
  /-- ERRKIND (R35, R211): `none` is the code 0, "Ok" -/
  errKind : Option ErrKind
  /-- ERRCAUSE (R35, R212): `none` is the code 0, NONE -/
  errCause : Option Cause
  /-- ERRIDX (R35) -/
  errIdx : BitVec 3
  /-- TXI (R40) -/
  txi : BitVec 3
  /-- TXLOG (R42), oldest first -/
  txLog : List TxEntry
  /-- The model's own: the frames that the outside presents, the next one first (R1, R72, R249). -/
  pending : List Frame
  /-- The model's own: what the transport does with the next writes, the next one first (R1, R41, R182). -/
  replies : List TxReply
  /-- The model's own: how many writes beyond `replies` were answered by the free value `Config.freeAnswer`. -/
  freeDraws : Nat
deriving DecidableEq, Repr

/-- Reset with the parameters as arguments (10_state.md R45, 70_reset_and_hazards.md R240, R241). The last three
fields are the model's own: nothing is presented and nothing settled (DESIGN CHOICE, log 2 and 3). -/
def State.resetWith (c : Config) : State c.freqW c.pwrW where
  outFreq := BitVec.ofNat c.freqW c.fDefault
  stepSize := BitVec.ofNat c.freqW c.stepDefault
  refFreq := BitVec.ofNat c.freqW c.refDefault
  refSrc := c.srcDefault
  outEn := c.enDefault
  pwr := BitVec.ofNat c.pwrW c.pwrDefault
  regs := c.initWord
  planV := false
  pDivExp := 0
  pPresc := .low
  pInt := 0
  pR := 0
  pBs := 0
  snap := false
  bsClamp := false
  res := 0
  resRem := 0
  errKind := none
  errCause := none
  errIdx := 0
  txi := 0
  txLog := []
  pending := []
  replies := []
  freeDraws := 0

/-- The machine right after reset, with the decided parameters (R45). -/
def State.reset : State := State.resetWith Config.decided

end Sys2Proof.Machine
end

