-- ==== Sys2Proof/Machine/Operands.lean ====
section
/-! DEFINITION. The arithmetic primitives of R7 and the field insert of 00_scope.md section 8. -/

namespace Sys2Proof.Machine

open Sys2Proof

/-! ### Arithmetic primitives (00_scope.md R7): exact, on naturals, for a positive divisor -/

/-- `floor_div(a, b)` -/
def floorDiv (a b : Nat) : Nat := a / b

/-- `ceil_div(a, b)` -/
def ceilDiv (a b : Nat) : Nat := (a + b - 1) / b

/-- `divides(b, a)` -/
def divides (b a : Nat) : Bool := a % b == 0

/-- `abs_diff(x, y)` -/
def absDiff (x y : Nat) : Nat := if y ≤ x then x - y else y - x

/-- `round_div(a, b)` with a tie going up (R7). -/
def roundHalfUp (a b : Nat) : Nat := floorDiv (2 * a + b) (2 * b)

/-- `a / b` to nearest with a tie going to the even neighbour: the other rule that 92_eei_decisions.md D8 names
for ROUND_TIE. -/
def roundHalfEven (a b : Nat) : Nat :=
  if 2 * (a % b) = b then a / b + (a / b) % 2 else roundHalfUp a b

/-- `round_div(a, b)` under the parameter ROUND_TIE (R4, R7). -/
def roundDiv : RoundTie → Nat → Nat → Nat
  | .halfUp => roundHalfUp
  | .halfEven => roundHalfEven

/-! ### Fields of a word (00_scope.md section 8) -/

/-- `mask(hi, lo) = ((1 << (hi - lo + 1)) - 1) << lo` -/
def mask (hi lo : Nat) : Word := ((1#32 <<< (hi + 1 - lo)) - 1#32) <<< lo

/-- `insert(w, hi, lo, v)`: clear the field, then OR in the value. -/
def insertBits (w : Word) (hi lo v : Nat) : Word :=
  (w &&& ~~~(mask hi lo)) ||| ((BitVec.ofNat 32 v <<< lo) &&& mask hi lo)

/-- `insert` at a field of LAYOUT, on the whole word set. -/
def insertField (f : BitField) (v : Nat) (ws : Vector Word 6) : Vector Word 6 :=
  ws.set f.word (insertBits ws[f.word] f.hi f.lo v)

/-! ### Value codes of one-bit elements (30_encoding.md R98, 92_eei_decisions.md D29) -/

/-- P_PRESC: 0 = Low, 1 = High. -/
def prescCode : Prescaler → Nat
  | .low => 0
  | .high => 1

/-- OUTEN and RFEN: 1 = enabled. -/
def enableCode (b : Bool) : Nat := if b then 1 else 0

/-- REFSRC: 0 = Internal, 1 = External (10_state.md R26). -/
def refSrcCode : RefSource → Nat
  | .internal => 0
  | .external => 1

/-- Nmin of a prescaler (40_planner.md R123). -/
def nmin : Prescaler → Nat
  | .low => Const.nminLow
  | .high => Const.nminHigh

end Sys2Proof.Machine
end

