-- ==== Sys2Proof/Machine/Flags.lean ====
section
/-! DEFINITION. The two flags (10_state.md R33) and the codes of the error registers (60_exceptions.md R211, R212). -/

namespace Sys2Proof.Machine

open Sys2Proof

/-- SNAP: the actual frequency `N * ref / r` differs from the target `f`, decided on exact integers (R33, R133). -/
def snapFlag (ref f N r : Nat) : Bool := decide (N * ref ≠ f * r)

/-- BSCLAMP: the band-select quotient exceeds 255 (R33, R151, R153). -/
def clampFlag (q : Nat) : Bool := decide (q > Const.bsMax)

/-- The kind of a cause (R212). -/
def Cause.kind : Cause → ErrKind
  | .fBelowMin => .rangeError
  | .fAboveMax => .rangeError
  | .noDivider => .rangeError
  | .stepZero => .ratioError
  | .ratioNotInteger => .ratioError
  | .ratioTooLarge => .ratioError
  | .notOnGrid => .gridError
  | .intBelowNmin => .gridError
  | .intAboveMax => .gridError
  | .optNoCandidate => .ratioError
  | .txFail => .hardwareError
  | .badOpcode => .illegalCommand

/-- The code of ERRKIND (R211). -/
def errKindCode : Option ErrKind → BitVec 3
  | none => 0
  | some .rangeError => 1
  | some .gridError => 2
  | some .ratioError => 3
  | some .hardwareError => 4
  | some .illegalCommand => 5

/-- The code of ERRCAUSE (R212). -/
def errCauseCode : Option Cause → BitVec 4
  | none => 0
  | some .fBelowMin => 1
  | some .fAboveMax => 2
  | some .noDivider => 3
  | some .stepZero => 4
  | some .ratioNotInteger => 5
  | some .ratioTooLarge => 6
  | some .notOnGrid => 7
  | some .intBelowNmin => 8
  | some .intAboveMax => 9
  | some .optNoCandidate => 10
  | some .txFail => 11
  | some .badOpcode => 12

/-- RSP, the response of the last command (30_encoding.md R84). -/
structure Response where
  errKind : BitVec 3
  errCause : BitVec 4
  errIdx : BitVec 3
  res : BitVec 64
  resRem : BitVec 10
deriving DecidableEq, Repr

/-- The response read from a state (R84). -/
def responseOf {fw pw : Nat} (s : State fw pw) : Response :=
  { errKind := errKindCode s.errKind, errCause := errCauseCode s.errCause, errIdx := s.errIdx,
    res := s.res, resRem := s.resRem }

end Sys2Proof.Machine
end

