-- ==== Sys2Proof/Machine/BandSelect.lean ====
section
/-! DEFINITION. The BandSelectCalculator (41_bandselect.md). -/

namespace Sys2Proof.Machine

open Sys2Proof

/-- The unclamped quotient `q = ceil_div(ref, r * MAX_PFD)` (R151). -/
def bandQuotient (c : Config) (ref r : Nat) : Nat := ceilDiv ref (r * c.maxPfd)

/-- `band_select(ref, r)`: the band select clamped to 1..255 and the clamp flag (R151, R153). -/
def bandSelect (c : Config) (ref r : Nat) : Nat × Bool :=
  let q := bandQuotient c ref r
  (if q < Const.bsMin then Const.bsMin else if q > Const.bsMax then Const.bsMax else q, clampFlag q)

end Sys2Proof.Machine
end

