-- ==== Sys2Proof/Machine/Planner.lean ====
section
/-! DEFINITION. The FrequencyPlanner (40_planner.md): pure operations that return a plan or a cause. -/

namespace Sys2Proof.Machine

open Sys2Proof

/-- The four values the planner returns: divider exponent `n`, prescaler `p`, feedback integer `N` (here `int`)
and reference divisor `r` (R126, R134). -/
structure Plan where
  n : Nat
  p : Prescaler
  int : Nat
  r : Nat
deriving DecidableEq, Repr

/-- The result of the optimal plan (R134). -/
structure OptPlan where
  plan : Plan
  actQ : Nat
  actM : Nat
  snap : Bool
deriving DecidableEq, Repr

/-! ### Shared steps -/

/-- `range_check(f)` (R120) -/
def rangeCheck (f : Nat) : Except Cause Unit :=
  if f < Const.fMin then .error .fBelowMin
  else if f > Const.fMax then .error .fAboveMax
  else .ok ()

/-- `2^n * f` lies in the VCO range, both ends inside (R121). -/
def inVcoRange (f n : Nat) : Bool := decide (Const.vcoMin ≤ f * 2 ^ n ∧ f * 2 ^ n ≤ Const.vcoMax)

/-- `div_exp(f)`: the smallest exponent that qualifies (R121). -/
def divExp (f : Nat) : Except Cause Nat :=
  match (List.range (Const.divExpMax + 1)).find? (inVcoRange f) with
  | some n => .ok n
  | none => .error .noDivider

/-- The prescaler of `presc(f)` (R123); its Nmin is `nmin`. -/
def presc (c : Config) (f : Nat) : Prescaler := if f ≥ c.prescThreshold then .high else .low

/-- `ratio_check(s, ref)` (R124) -/
def ratioCheck (step ref : Nat) : Except Cause Nat :=
  if step = 0 then .error .stepZero
  else if ref % step ≠ 0 then .error .ratioNotInteger
  else if floorDiv ref step ≥ Const.rMax + 1 then .error .ratioTooLarge
  else .ok (floorDiv ref step)

/-- `grid_check(f, s, nmin)` (R125) -/
def gridCheck (f step lo : Nat) : Except Cause Nat :=
  if f % step ≠ 0 then .error .notOnGrid
  else if floorDiv f step < lo then .error .intBelowNmin
  else if floorDiv f step > Const.intMax then .error .intAboveMax
  else .ok (floorDiv f step)

/-! ### The grid plan -/

/-- `compute_grid_plan(f, s, ref)` (R126): the first failing check decides the error. -/
def computeGridPlan (c : Config) (f step ref : Nat) : Except Cause Plan := do
  rangeCheck f
  let n ← divExp f
  let r ← ratioCheck step ref
  let N ← gridCheck f step (nmin (presc c f))
  return { n := n, p := presc c f, int := N, r := r }

/-! ### The optimal plan -/

/-- `nhi`, the last candidate: `min(floor_div(1023 * f, ref), 65535)` (R130). -/
def candidateMax (f ref : Nat) : Nat := min (floorDiv (Const.rMax * f) ref) Const.intMax

/-- The candidates `lo, lo + 1, ..., nhi`, ascending (R130). -/
def candidates (f ref lo : Nat) : List Nat := List.range' lo (candidateMax f ref + 1 - lo)

/-- `rn(N) = round_div(N * ref, f)` (R131) -/
def candidateR (c : Config) (f ref N : Nat) : Nat := roundDiv c.roundTie (N * ref) f

/-- `dev(N) = abs_diff(N * ref, rn(N) * f)` (R131) -/
def candidateDev (c : Config) (f ref N : Nat) : Nat := absDiff (N * ref) (candidateR c f ref N * f)

/-- One pass of the selection loop (R132): a strictly smaller deviation wins. -/
def selectStep (c : Config) (f ref : Nat) (best : Option Nat) (N : Nat) : Option Nat :=
  if candidateR c f ref N ≥ 1 then
    match best with
    | none => some N
    | some b => if candidateDev c f ref N < candidateDev c f ref b then some N else some b
  else best

/-- The selection loop over all candidates (R132). -/
def selectBest (c : Config) (f ref lo : Nat) : Option Nat :=
  (candidates f ref lo).foldl (selectStep c f ref) none

/-- `compute_optimal_plan(f, ref)` (R134), with the actual frequency and the snapped report of R133. -/
def computeOptimalPlan (c : Config) (f ref : Nat) : Except Cause OptPlan := do
  rangeCheck f
  let n ← divExp f
  match selectBest c f ref (nmin (presc c f)) with
  | none => throw .optNoCandidate
  | some N =>
    let r := candidateR c f ref N
    return { plan := { n := n, p := presc c f, int := N, r := r }
             actQ := floorDiv (N * ref) r
             actM := N * ref % r
             snap := snapFlag ref f N r }

end Sys2Proof.Machine
end

