-- ==== Sys2Proof/Machine/Encoder.lean ====
section
/-! DEFINITION. The RegisterEncoder (42_encoder.md), over any LAYOUT. -/

namespace Sys2Proof.Machine

open Sys2Proof

/-- `encode(plan, en, pw, old)` (R160) under LAYOUT: every dynamic field is cleared and rewritten with `insert`,
and nothing else changes (R167). With the decided LAYOUT its words are those of R161 to R166. -/
def encodeWords (c : Config) (pl : Plan) (bs : Nat) (en : Bool) (pw : Nat)
    (old : Vector Word 6) : Vector Word 6 :=
  insertField c.layout.rfpwr pw
    (insertField c.layout.rfen (enableCode en)
      (insertField c.layout.bandsel bs
        (insertField c.layout.divsel pl.n
          (insertField c.layout.fix2 c.fix2Value
            (insertField c.layout.rcnt pl.r
              (insertField c.layout.presc (prescCode pl.p)
                (insertField c.layout.int pl.int old)))))))

/-- DYN[i], the dynamic bits of word `i` under LAYOUT (R170). -/
def dynamicMask (l : Layout) (i : WordIndex) : Word :=
  l.fields.foldl (fun m f => if f.word = i then m ||| mask f.hi f.lo else m) 0

end Sys2Proof.Machine
end

