-- ==== Sys2Proof/Machine/Ops.lean ====
section
/-! DEFINITION. The operations on the state that the meanings share: accepting a command, raising an error,
committing a plan, and writing words to the transport. -/

namespace Sys2Proof.Machine

open Sys2Proof

variable {fw pw : Nat}

/-- Accepting a command: the error registers are cleared (44_commands.md R194). There is no return from an error:
the next accept is what ends it (60_exceptions.md R218). -/
def accept (s : State fw pw) : State fw pw := { s with errKind := none, errCause := none, errIdx := 0 }

/-- `raise K(c)` (60_exceptions.md R210): the kind and the cause are recorded; a HardwareError also records TXI in
ERRIDX and then clears TXI. There is no handler, no vector and no saved address. -/
def raise (e : Cause) (s : State fw pw) : State fw pw :=
  match e.kind with
  | .hardwareError =>
    { s with errKind := some e.kind, errCause := some e, errIdx := s.txi, txi := 0 }
  | _ => { s with errKind := some e.kind, errCause := some e }

/-- The commit step (44_commands.md R195): one atomic update. -/
def commit (pl : Plan) (bs : Nat × Bool) (words : Vector Word 6) (fo : Nat) (sn : Bool) (s : State fw pw) :
    State fw pw :=
  { s with
    regs := words
    planV := true
    pDivExp := BitVec.ofNat 3 pl.n
    pPresc := pl.p
    pInt := BitVec.ofNat 16 pl.int
    pR := BitVec.ofNat 10 pl.r
    pBs := BitVec.ofNat 8 bs.1
    outFreq := BitVec.ofNat fw fo
    snap := sn
    bsClamp := bs.2 }

/-- Band select, encode and commit of a validated plan (00_scope.md R2; the middle of R190 and R191). -/
def commitPlan (c : Config) (pl : Plan) (fo : Nat) (sn : Bool) (s : State fw pw) : State fw pw :=
  let bs := bandSelect c s.refFreq.toNat pl.r
  commit pl bs (encodeWords c pl bs.1 s.outEn s.pwr.toNat s.regs) fo sn s

/-- RES and RESREM, the value part of the response (10_state.md R34). -/
def setResult (q m : Nat) (s : State fw pw) : State fw pw :=
  { s with res := BitVec.ofNat 64 q, resRem := BitVec.ofNat 10 m }

/-! ### The transport (43_transport.md) -/

/-- Whether `n` writes in a row, which a failed one ends, meet one that the transport never answers
(R184, 93_implementation_defined.md U8). -/
def hangs : Nat → List TxReply → Bool
  | 0, _ => false
  | _ + 1, [] => false
  | _ + 1, .silent :: _ => true
  | _ + 1, .answers .fail :: _ => false
  | n + 1, .answers .ok :: rs => hangs n rs

/-- The transport's answer to the next write: the one settled by `replies`, or, beyond them, a free value (R182).
`hangs` is asked first, so a `silent` never stands here. -/
def takeAnswer (s : State fw pw) : TxAnswer × State fw pw :=
  match s.replies with
  | [] => (Config.freeAnswer s.freeDraws, { s with freeDraws := s.freeDraws + 1 })
  | .answers a :: rs => (a, { s with replies := rs })
  | .silent :: rs => (.fail, { s with replies := rs })

/-- `TxWrite(i, v)` with the answer it gets: TXI holds the index and TXLOG the entry (R180). -/
def txWrite (i : WordIndex) (v : Word) (s : State fw pw) : TxAnswer × State fw pw :=
  let (a, s1) := takeAnswer { s with txi := BitVec.ofNat 3 i }
  (a, { s1 with txLog := s1.txLog ++ [{ index := i, value := v, answer := a }] })

/-- The loop of the transmit step over a list of words (R180): a failed write ends it with HardwareError at once
(R182), and after the last one TXI is 0. -/
def writeAll : List (WordIndex × Word) → State fw pw → State fw pw
  | [], s => { s with txi := 0 }
  | (i, v) :: ws, s =>
    match txWrite i v s with
    | (.fail, s1) => raise .txFail s1
    | (.ok, s1) => writeAll ws s1

/-- Writing a list of words: stuck where the transport never answers. -/
def send (ws : List (WordIndex × Word)) (s : State fw pw) : Host.Outcome (State fw pw) Fault Refusal :=
  if hangs ws.length s.replies then .fault .transportSilent else .next (writeAll ws s)

/-- The order of the writes of one transmit step (20_memory.md R68). -/
def txOrder : List WordIndex := [5, 4, 3, 2, 1, 0]

/-- The words a transmit step sends: all six, as the commit left them (R180, R181). -/
def txWords (regs : Vector Word 6) : List (WordIndex × Word) := txOrder.map fun i => (i, regs[i])

/-- `transmit()` (R180) -/
def transmit (s : State fw pw) : Host.Outcome (State fw pw) Fault Refusal := send (txWords s.regs) s

/-! ### The command port -/

/-- The next frame, if one is presented, and the state without it (20_memory.md R72). -/
def fetch (s : State fw pw) : Option (Frame × State fw pw) :=
  match s.pending with
  | [] => none
  | fr :: rest => some (fr, { s with pending := rest })

/-- A step while nothing is presented: the block waits (70_reset_and_hazards.md R240, R249). -/
def idle (s : State fw pw) : State fw pw := s

/-- A frame presented before all others. -/
def present (fr : Frame) (s : State fw pw) : State fw pw := { s with pending := fr :: s.pending }

end Sys2Proof.Machine
end

