-- ==== Sys2Proof/Machine/Chip.lean ====
section
/-! DEFINITION. The chip at the far end of the transport, as a function of TXLOG (20_memory.md R66). It is no state of
the block and no step reads it. -/

namespace Sys2Proof.Machine

open Sys2Proof

/-- What the chip holds, as far as the spec says. `none` in a word is "not known": never written since reset, or
its last write failed (R182, R246). DESIGN CHOICE (log 7). -/
structure Chip where
  /-- the last value written to each index -/
  held : Vector (Option Word) 6
  /-- the set that took effect at the last successful write of word 0, if there was one -/
  effective : Option (Vector (Option Word) 6)
  /-- a failed write of word 0 came after that one: whether it arrived is not known (R246) -/
  inDoubt : Bool
deriving DecidableEq, Repr

/-- The chip before any write: the spec says nothing of it. -/
def Chip.initial : Chip := { held := Vector.replicate 6 none, effective := none, inDoubt := false }

/-- The effect of one transport write on the chip (R66, R182, R246). -/
def Chip.absorb (ch : Chip) (e : TxEntry) : Chip :=
  match e.answer with
  | .ok =>
    let held := ch.held.set e.index (some e.value)
    if e.index = 0 then { held := held, effective := some held, inDoubt := false }
    else { ch with held := held }
  | .fail =>
    { ch with held := ch.held.set e.index none, inDoubt := ch.inDoubt || decide (e.index = 0) }

/-- The chip after the writes that reach it, the first one first. -/
def chipAfter (arrived : List TxEntry) : Chip := arrived.foldl Chip.absorb Chip.initial

/-- The premise on the transport (43_transport.md R184 (a), 20_memory.md R68, R71, 70_reset_and_hazards.md R244, R245;
log 17): what reaches the chip is what TXLOG holds, in the order of emission, with no write of another device between. A
statement about the chip names it. -/
def DeliversInOrder (log arrived : List TxEntry) : Prop := arrived = log

/-- The bytes that the writes of a TXLOG hand to the transport: four for each write, most significant first (R62).
DESIGN CHOICE (log 16): an entry answered `fail` counts all its four bytes, as one answered `ok` does, because the block
has handed them over; how many of them stand on the wire is unknown (R182). -/
def wireBytes (log : List TxEntry) : List Byte := log.flatMap fun e => wordBytes e.value

end Sys2Proof.Machine
end

