-- ==== Sys2Proof/Machine/Commands.lean ====
section
/-! DEFINITION. The four commands (44_commands.md) and what a word that is no command does. -/

namespace Sys2Proof.Machine

open Sys2Proof

variable {fw pw : Nat}

/-! ### Bodies, with the parameters as an argument (00_scope.md R4) -/

/-- SETF (R190) -/
def setFrequency (c : Config) (f : Nat) (s : State fw pw) : Host.Outcome (State fw pw) Fault Refusal :=
  let s1 := accept s
  match computeGridPlan c f s1.stepSize.toNat s1.refFreq.toNat with
  | .error e => .next (raise e s1)
  | .ok pl => transmit (commitPlan c pl f false s1)

/-- SETFOPT (R191) -/
def setFrequencyOptimally (c : Config) (f : Nat) (s : State fw pw) : Host.Outcome (State fw pw) Fault Refusal :=
  let s1 := accept s
  match computeOptimalPlan c f s1.refFreq.toNat with
  | .error e => .next (raise e s1)
  | .ok o => transmit (setResult o.actQ o.actM (commitPlan c o.plan o.actQ o.snap s1))

/-- SETSTEP (R192) -/
def setStepsize (hz : Nat) (s : State fw pw) : Host.Outcome (State fw pw) Fault Refusal :=
  let s1 := accept s
  match ratioCheck hz s1.refFreq.toNat with
  | .error e => .next (raise e s1)
  | .ok _ => .next { s1 with stepSize := BitVec.ofNat fw hz }

/-- GETOPTSTEP (R193) -/
def getOptimalStepsize (c : Config) (f : Nat) (s : State fw pw) : Host.Outcome (State fw pw) Fault Refusal :=
  let s1 := accept s
  match computeOptimalPlan c f s1.refFreq.toNat with
  | .error e => .next (raise e s1)
  | .ok o =>
    .next (setResult (floorDiv s1.refFreq.toNat o.plan.r) (s1.refFreq.toNat % o.plan.r) s1)

/-! ### The meanings, with the decided parameters -/

/-- SETF -/
def execSetf (f : Nat) (s : State fw pw) : Host.Outcome (State fw pw) Fault Refusal :=
  setFrequency Config.decided f s

/-- SETFOPT -/
def execSetfopt (f : Nat) (s : State fw pw) : Host.Outcome (State fw pw) Fault Refusal :=
  setFrequencyOptimally Config.decided f s

/-- SETSTEP -/
def execSetstep (hz : Nat) (s : State fw pw) : Host.Outcome (State fw pw) Fault Refusal := setStepsize hz s

/-- GETOPTSTEP -/
def execGetoptstep (f : Nat) (s : State fw pw) : Host.Outcome (State fw pw) Fault Refusal :=
  getOptimalStepsize Config.decided f s

/-! ### Frames that name no instruction -/

/-- An illegal command (R197): it is accepted and ends with IllegalCommand(BAD_OPCODE). -/
def execIllegal (s : State fw pw) : State fw pw := raise .badOpcode (accept s)

/-- What a rejected frame does: an opcode that names no command is an illegal command (R83, R197); index bits 6 or
7 are no configuration word (20_memory.md R60). A frame has no length error: that arm is never taken. -/
def execRejected (e : DecodeError) (s : State fw pw) : Host.Outcome (State fw pw) Fault Refusal :=
  match e with
  | .badOpcode _ => .next (execIllegal s)
  | .badIndex idx => .refused (.unusedWordIndex idx)
  | .badLength _ => .next (execIllegal s)

end Sys2Proof.Machine
end

