-- ==== Sys2Proof/Machine/ConfigWords.lean ====
section
/-! DEFINITION. The configuration words as instructions (30_encoding.md R92 to R97, R101). A configuration word is what
the block puts out, not what it takes in: the HOST has no command that reads or writes a word directly (10_state.md R21),
REGS is written by reset and the commit alone (R21, R32), and only the transmit step issues a transport write (20_memory.md
R60, 43_transport.md R180). So a configuration word that is presented on its own is read into its fields, as a reader of
TXLOG does (R101), and changes nothing of the block. DEDUCED (log 1). Its effect at the chip is `Chip.absorb`. -/

namespace Sys2Proof.Machine

open Sys2Proof

variable {fw pw : Nat}

/-- A configuration word is read: no state of the block changes. -/
def readWord (s : State fw pw) : Host.Outcome (State fw pw) Fault Refusal := .next s

/-- CFG0, the word that latches at the chip (R92) -/
def execCfg0 (_c : Cfg0) (s : State fw pw) : Host.Outcome (State fw pw) Fault Refusal := readWord s

/-- CFG1 (R93) -/
def execCfg1 (_c : Cfg1) (s : State fw pw) : Host.Outcome (State fw pw) Fault Refusal := readWord s

/-- CFG2 (R94) -/
def execCfg2 (_c : Cfg2) (s : State fw pw) : Host.Outcome (State fw pw) Fault Refusal := readWord s

/-- CFG3 (R95) -/
def execCfg3 (_c : Cfg3) (s : State fw pw) : Host.Outcome (State fw pw) Fault Refusal := readWord s

/-- CFG4 (R96) -/
def execCfg4 (_c : Cfg4) (s : State fw pw) : Host.Outcome (State fw pw) Fault Refusal := readWord s

/-- CFG5 (R97) -/
def execCfg5 (_c : Cfg5) (s : State fw pw) : Host.Outcome (State fw pw) Fault Refusal := readWord s

end Sys2Proof.Machine
end

