-- ==== Sys2Proof/Machine/Dispatch.lean ====
section
/-! DEFINITION. The dispatch: one arm for each instruction. -/

namespace Sys2Proof.Machine

open Sys2Proof

def exec (i : Instr) (s : State) : Host.Outcome State Fault Refusal :=
  match i with
  | .setf f => Sys2Proof.Machine.execSetf f s
  | .setfopt f => Sys2Proof.Machine.execSetfopt f s
  | .setstep hz => Sys2Proof.Machine.execSetstep hz s
  | .getoptstep f => Sys2Proof.Machine.execGetoptstep f s
  | .cfg0 c => Sys2Proof.Machine.execCfg0 c s
  | .cfg1 c => Sys2Proof.Machine.execCfg1 c s
  | .cfg2 c => Sys2Proof.Machine.execCfg2 c s
  | .cfg3 c => Sys2Proof.Machine.execCfg3 c s
  | .cfg4 c => Sys2Proof.Machine.execCfg4 c s
  | .cfg5 c => Sys2Proof.Machine.execCfg5 c s

end Sys2Proof.Machine
end

