-- ==== Sys2Proof/Machine/Step.lean ====
section
/-! DEFINITION. One step: the block takes the next frame whole, runs it to its end and is idle again (20_memory.md R72,
44_commands.md R194, R196). -/

namespace Sys2Proof.Machine

open Sys2Proof

/-- One step of the machine. -/
def step (s : State) : Host.Outcome State Fault Refusal :=
  match fetch s with
  | none => .next (idle s)
  | some (fr, s1) =>
    match decode fr with
    | .ok i => exec i s1
    | .error e => execRejected e s1

/-- The state with a word of the opcode table presented as the next frame. -/
def State.withFetchWord (s : State) (nbits w : Nat) : State := present (frameOfTableWord nbits w) s

end Sys2Proof.Machine
end

