-- ==== Sys2Proof/Machine/Parameters.lean ====
section
/-! DEFINITION. The block as a function of its parameters (00_scope.md R4, 10_state.md R41): the machine that each
configuration gives. `exec` and `step` are the decided one. -/

namespace Sys2Proof.Machine

open Sys2Proof

variable {fw pw : Nat}

/-- The meaning of an instruction under the parameters `c`. -/
def execWith (c : Config) (i : Instr) (s : State fw pw) : Host.Outcome (State fw pw) Fault Refusal :=
  match i with
  | .setf f => setFrequency c f s
  | .setfopt f => setFrequencyOptimally c f s
  | .setstep hz => setStepsize hz s
  | .getoptstep f => getOptimalStepsize c f s
  | .cfg0 x => execCfg0 x s
  | .cfg1 x => execCfg1 x s
  | .cfg2 x => execCfg2 x s
  | .cfg3 x => execCfg3 x s
  | .cfg4 x => execCfg4 x s
  | .cfg5 x => execCfg5 x s

/-- One step under the parameters `c`. -/
def stepWith (c : Config) (s : State fw pw) : Host.Outcome (State fw pw) Fault Refusal :=
  match fetch s with
  | none => .next (idle s)
  | some (fr, s1) =>
    match decode fr with
    | .ok i => execWith c i s1
    | .error e => execRejected e s1

/-- The machine of a configuration: its frequency registers have FREQ_W bits and its PWR has PWR_W bits, its steps take
the other parameters, and it starts from its own reset values. -/
def machineOf (c : Config) : Host.Core :=
  { State := State c.freqW c.pwrW
    Fault := Fault
    Refusal := Refusal
    step := stepWith c
    reset := State.resetWith c }

end Sys2Proof.Machine
end

