-- ==== Sys2Proof/Safety.lean ====
section
/-! DEFINITION. What every reachable state satisfies: the invariants that the spec states of the registers. -/

namespace Sys2Proof.Machine

open Sys2Proof

variable {fw pw : Nat}

/-- The plan that the plan registers hold (10_state.md R31). -/
def planOf (s : State fw pw) : Plan :=
  { n := s.pDivExp.toNat, p := s.pPresc, int := s.pInt.toNat, r := s.pR.toNat }

/-- Between reset and the first commit the plan registers and the two flags hold 0 (R31, R33). -/
structure NoPlan (s : State fw pw) : Prop where
  divExp : s.pDivExp = 0
  presc : s.pPresc = .low
  int : s.pInt = 0
  r : s.pR = 0
  bs : s.pBs = 0
  snap : s.snap = false
  clamp : s.bsClamp = false

/-- What holds while a plan is live (R23, R29, R31, R33, 41_bandselect.md R153). -/
structure LivePlan (c : Config) (s : State fw pw) : Prop where
  divExp : s.pDivExp.toNat ≤ Const.divExpMax
  int : nmin s.pPresc ≤ s.pInt.toNat
  r : 1 ≤ s.pR.toNat
  bs : 1 ≤ s.pBs.toNat
  /-- R23: REGS reflects the live plan -/
  words : s.regs = encodeWords c (planOf s) s.pBs.toNat s.outEn s.pwr.toNat s.regs
  /-- R29: OUTFREQ is the whole-hertz part of the frequency the plan produces -/
  outFreq : s.outFreq.toNat = s.pInt.toNat * s.refFreq.toNat / s.pR.toNat
  /-- R33: an exact plan produces OUTFREQ, and puts the VCO in its range -/
  exact : s.snap = false → s.pInt.toNat * s.refFreq.toNat = s.outFreq.toNat * s.pR.toNat ∧
    inVcoRange s.outFreq.toNat s.pDivExp.toNat = true
  /-- R153: where the clamp does not bind, the calibration clock is under the ceiling -/
  unclamped : s.bsClamp = false → s.refFreq.toNat ≤ s.pBs.toNat * (s.pR.toNat * c.maxPfd)
  /-- R153: the clamp binds only above 255 times the ceiling -/
  clamped : s.bsClamp = true →
    s.pBs.toNat = Const.bsMax ∧ Const.bsMax * (s.pR.toNat * c.maxPfd) < s.refFreq.toNat

/-- The invariant of the block under the parameters `c`. -/
structure Inv (c : Config) (s : State fw pw) : Prop where
  /-- R25 -/
  ref_pos : 0 < s.refFreq.toNat
  /-- R30 -/
  step_pos : 0 < s.stepSize.toNat
  /-- R30 -/
  step_divides : s.refFreq.toNat % s.stepSize.toNat = 0
  /-- R30 -/
  step_ratio : s.refFreq.toNat / s.stepSize.toNat ≤ Const.rMax
  /-- R22: the index bits -/
  index : ∀ i : WordIndex, (s.regs[i]).extractLsb' 0 3 = BitVec.ofNat 3 i
  /-- R170, R99: the static bits keep their initial values -/
  static : ∀ i : WordIndex, s.regs[i] &&& ~~~(dynamicMask c.layout i) =
    c.initWord[i] &&& ~~~(dynamicMask c.layout i)
  /-- R40: TXI is 0 outside a transmit step -/
  idle : s.txi = 0
  /-- R211, R212: ERRKIND is the kind of ERRCAUSE -/
  kind : s.errKind = s.errCause.map Cause.kind
  /-- R35, R213: only a HardwareError has an index, and it is a word index -/
  errIdx : (s.errKind ≠ some .hardwareError → s.errIdx = 0) ∧ s.errIdx.toNat ≤ 5
  /-- R31 -/
  noPlan : s.planV = false → NoPlan s
  /-- R31 -/
  plan : s.planV = true → LivePlan c s

end Sys2Proof.Machine
end

