-- ==== Sys2Proof/Certificates/Slice0/Obligations.lean ====
section
/-! DEFINITION. The statements about the machine, and the numbers they are written with, taken from the spec and not
from the model's own operations. -/

namespace Sys2Proof.Stated

open Sys2Proof Sys2Proof.Machine

/-! ### Numbers of the spec -/

/-- `2^n * f` lies in the VCO range, both ends inside (40_planner.md R121). -/
def vcoOk (f n : Nat) : Prop := 2200000000 ≤ 2 ^ n * f ∧ 2 ^ n * f ≤ 4400000000

/-- `n` is the smallest exponent in 0..6 that puts the VCO in its range (R121). -/
def leastExp (f n : Nat) : Prop := n ≤ 6 ∧ vcoOk f n ∧ ∀ m < n, ¬ vcoOk f m

/-- The target lies in `[40 MHz, 4.4 GHz]` (R120). -/
def inRange (f : Nat) : Prop := 40000000 ≤ f ∧ f ≤ 4400000000

/-- The prescaler of a target (R123). -/
def prescOf (f : Nat) : Prescaler := if 3600000000 ≤ f then .high else .low

/-- Nmin of a target (R123). -/
def nminOf (f : Nat) : Nat := if 3600000000 ≤ f then 75 else 23

/-- The rounded divisor of a candidate: `round(N * ref / f)`, a tie going up (R7, R131). -/
def divisorOf (f ref N : Nat) : Nat := (2 * (N * ref) + f) / (2 * f)

/-- The deviation of a candidate, `|N * ref - rn * f|` (R131). -/
def deviationOf (f ref N : Nat) : Nat := ((N * ref : Int) - (divisorOf f ref N * f : Int)).natAbs

/-- `N` is a candidate of the search, and admissible (R130, R131). -/
def candidate (f ref N : Nat) : Prop :=
  nminOf f ≤ N ∧ N ≤ 1023 * f / ref ∧ N ≤ 65535 ∧ 1 ≤ divisorOf f ref N

/-- `N` is the least candidate among those of least deviation (R132). -/
def bestCandidate (f ref N : Nat) : Prop :=
  candidate f ref N ∧ ∀ M, candidate f ref M →
    deviationOf f ref N ≤ deviationOf f ref M ∧ (M < N → deviationOf f ref N < deviationOf f ref M)

/-- `ceil(pfd / max_pfd)` clamped to 1..255, for a positive reference (41_bandselect.md R151). -/
def bandOf (ref r : Nat) : Nat := min 255 ((ref + r * 125000 - 1) / (r * 125000))

/-- The six words of a plan, merged into the stored ones (42_encoder.md R160 to R166). -/
def mergedWords (n : Nat) (p : Prescaler) (N r bs : Nat) (en : Bool) (pw : BitVec 2)
    (old : Vector Word 6) : Vector Word 6 :=
  #v[(old[0] &&& 0x80007FFF#32) ||| (BitVec.ofNat 32 N <<< 15),
     (old[1] &&& 0xF7FFFFFF#32) ||| (BitVec.ofNat 32 (if p = .high then 1 else 0) <<< 27),
     (old[2] &&& 0xFF00003F#32) ||| (BitVec.ofNat 32 r <<< 14) ||| (0xBF#32 <<< 6),
     old[3],
     (old[4] &&& 0xFF800FC7#32) ||| (BitVec.ofNat 32 n <<< 20) ||| (BitVec.ofNat 32 bs <<< 12) |||
       (BitVec.ofNat 32 (if en then 1 else 0) <<< 5) ||| (BitVec.ofNat 32 pw.toNat <<< 3),
     old[5]]

/-- The dynamic bits of each word (R170). -/
def dynamicBits : Vector Word 6 :=
  #v[0x7FFF8000#32, 0x08000000#32, 0x00FFFFC0#32, 0x00000000#32, 0x007FF038#32, 0x00000000#32]

/-! ### States of the spec -/

/-- The error registers cleared: what accepting a command does (44_commands.md R194). -/
def accepted (s : State) : State := { s with errKind := none, errCause := none, errIdx := 0 }

/-- The command ended with an error raised before its commit (60_exceptions.md R210, R214). -/
def rejected (k : ErrKind) (e : Cause) (s : State) : State :=
  { s with errKind := some k, errCause := some e, errIdx := 0 }

/-- The words of a plan for the target `f` with dividers `n`, `N`, `r`, in a state. -/
def wordsFor (f n N r : Nat) (s : State) : Vector Word 6 :=
  mergedWords n (prescOf f) N r (bandOf s.refFreq.toNat r) s.outEn s.pwr s.regs

/-- The state after the accept and the commit of a plan (44_commands.md R195). -/
def committed (f n N r fo : Nat) (sn : Bool) (s : State) : State :=
  { accepted s with
    regs := wordsFor f n N r s
    planV := true
    pDivExp := BitVec.ofNat 3 n
    pPresc := prescOf f
    pInt := BitVec.ofNat 16 N
    pR := BitVec.ofNat 10 r
    pBs := BitVec.ofNat 8 (bandOf s.refFreq.toNat r)
    outFreq := BitVec.ofNat 64 fo
    snap := sn
    bsClamp := decide (255 * (r * 125000) < s.refFreq.toNat) }

/-- The state after the commit of an optimal plan, with the response value (R191). -/
def committedOpt (f n N r : Nat) (s : State) : State :=
  { committed f n N r (N * s.refFreq.toNat / r) (decide (N * s.refFreq.toNat ≠ f * r)) s with
    res := BitVec.ofNat 64 (N * s.refFreq.toNat / r)
    resRem := BitVec.ofNat 10 (N * s.refFreq.toNat % r) }

/-- The writes of one transmit step, in order (43_transport.md R180, 20_memory.md R68). -/
def writesOf (regs : Vector Word 6) : List (WordIndex × Word) :=
  [((5 : WordIndex), regs[5]), (4, regs[4]), (3, regs[3]), (2, regs[2]), (1, regs[1]), (0, regs[0])]

/-- Their log entries, all answered `ok`. -/
def okLog (ws : List (WordIndex × Word)) : List TxEntry := ws.map fun p => ⟨p.1, p.2, .ok⟩

/-- The transport answers the next `n` writes `ok`. -/
def okReplies (n : Nat) : List TxReply := List.replicate n (.answers .ok)

/-- The state after the writes of `ws` succeeded, the transport's later replies being `rest`. -/
def sent (ws : List (WordIndex × Word)) (rest : List TxReply) (s : State) : State :=
  { s with txi := 0, txLog := s.txLog ++ okLog ws, replies := rest }

/-- The state after the writes of `pre` succeeded and the one of word `i` failed (43_transport.md R182, R210). -/
def failed (pre : List (WordIndex × Word)) (i : WordIndex) (v : Word) (rest : List TxReply) (s : State) :
    State :=
  { s with
    txi := 0, errKind := some .hardwareError, errCause := some .txFail, errIdx := BitVec.ofNat 3 i
    txLog := s.txLog ++ okLog pre ++ [⟨i, v, .fail⟩], replies := rest }

/-! ### Conditions of the spec -/

/-- The conditions of a grid plan (40_planner.md R126), with `n` the exponent it takes. -/
def gridPlannable (f n : Nat) (s : State) : Prop :=
  0 < s.refFreq.toNat ∧ inRange f ∧ leastExp f n ∧ s.stepSize.toNat ≠ 0 ∧
    s.refFreq.toNat % s.stepSize.toNat = 0 ∧ s.refFreq.toNat / s.stepSize.toNat ≤ 1023 ∧
    f % s.stepSize.toNat = 0 ∧ nminOf f ≤ f / s.stepSize.toNat ∧ f / s.stepSize.toNat ≤ 65535

/-- The conditions of an optimal plan (R134), with `n` and `N` the exponent and feedback integer it takes. -/
def optPlannable (f n N : Nat) (s : State) : Prop :=
  0 < s.refFreq.toNat ∧ inRange f ∧ leastExp f n ∧ bestCandidate f s.refFreq.toNat N

/-- The first failing check of SETSTEP, in order (60_exceptions.md R217). -/
def ratioFailure (step ref : Nat) : Option (ErrKind × Cause) :=
  if step = 0 then some (.ratioError, .stepZero)
  else if ref % step ≠ 0 then some (.ratioError, .ratioNotInteger)
  else if ref / step ≥ 1024 then some (.ratioError, .ratioTooLarge)
  else none

/-- The first failing check of SETF before its commit, in order (R217). -/
def gridFailure (f step ref : Nat) : Option (ErrKind × Cause) :=
  if f < 40000000 then some (.rangeError, .fBelowMin)
  else if f > 4400000000 then some (.rangeError, .fAboveMax)
  else match ratioFailure step ref with
    | some e => some e
    | none =>
      if f % step ≠ 0 then some (.gridError, .notOnGrid)
      else if f / step < nminOf f then some (.gridError, .intBelowNmin)
      else if f / step > 65535 then some (.gridError, .intAboveMax)
      else none

/-- An instruction is one of the four commands (30_encoding.md R81). -/
def isCommand : Instr → Prop
  | .setf _ => True
  | .setfopt _ => True
  | .setstep _ => True
  | .getoptstep _ => True
  | .cfg0 _ => False
  | .cfg1 _ => False
  | .cfg2 _ => False
  | .cfg3 _ => False
  | .cfg4 _ => False
  | .cfg5 _ => False

/-- An instruction is one of the two that set the frequency. -/
def isSet : Instr → Prop
  | .setf _ => True
  | .setfopt _ => True
  | .setstep _ => False
  | .getoptstep _ => False
  | .cfg0 _ => False
  | .cfg1 _ => False
  | .cfg2 _ => False
  | .cfg3 _ => False
  | .cfg4 _ => False
  | .cfg5 _ => False

/-- Two outcomes agree after a change of the state. -/
def mapNext (g : State → State) : Host.Outcome State Fault Refusal → Host.Outcome State Fault Refusal
  | .next t => .next (g t)
  | .fault r => .fault r
  | .refused r => .refused r

end Sys2Proof.Stated

open Sys2Proof Sys2Proof.Machine Sys2Proof.Stated

/-! ### Encoding -/

/-- No bit of an instruction is lost by its encoding (30_encoding.md R80, R90). -/
def Obligations.EveryWellFormedInstructionDecodesBack : Prop :=
  ∀ i : Instr, i.wf = true → decode (encode i) = .ok i

/-- Every frame that decodes is the encoding of what it decodes to, and that is well-formed. -/
def Obligations.EveryDecodedFrameEncodesBack : Prop :=
  ∀ (fr : Frame) (i : Instr), decode fr = .ok i → encode i = fr ∧ i.wf = true

/-- The opcode map R81, the operand R82 and the illegal opcodes R83, on numbers. -/
def Obligations.CommandWordDecodesByOpcode : Prop :=
  ∀ cw : CommandWord, decode (.command cw) =
    if cw.toNat / 2 ^ 64 = 1 then .ok (.setf (cw.toNat % 2 ^ 64))
    else if cw.toNat / 2 ^ 64 = 2 then .ok (.setfopt (cw.toNat % 2 ^ 64))
    else if cw.toNat / 2 ^ 64 = 3 then .ok (.setstep (cw.toNat % 2 ^ 64))
    else if cw.toNat / 2 ^ 64 = 4 then .ok (.getoptstep (cw.toNat % 2 ^ 64))
    else .error (.badOpcode (BitVec.ofNat 8 (cw.toNat / 2 ^ 64)))

/-- The fields of the six words stand at the bits of R92 to R97: the word is the sum of its fields, each at its
place. -/
def Obligations.ConfigWordIsTheSumOfItsFields : Prop :=
  ∀ w : Word,
    (w.toNat % 8 = 0 → ∃ c, decode (.config w) = .ok (.cfg0 c) ∧
      w.toNat = c.rsv31.toNat * 2 ^ 31 + c.int.toNat * 2 ^ 15 + c.frac.toNat * 2 ^ 3) ∧
    (w.toNat % 8 = 1 → ∃ c, decode (.config w) = .ok (.cfg1 c) ∧
      w.toNat = c.rsv31_29.toNat * 2 ^ 29 + c.phadj.toNat * 2 ^ 28 + c.presc.toNat * 2 ^ 27 +
        c.phase.toNat * 2 ^ 15 + c.mod.toNat * 2 ^ 3 + 1) ∧
    (w.toNat % 8 = 2 → ∃ c, decode (.config w) = .ok (.cfg2 c) ∧
      w.toNat = c.rsv31.toNat * 2 ^ 31 + c.noise.toNat * 2 ^ 29 + c.muxout.toNat * 2 ^ 26 +
        c.refdbl.toNat * 2 ^ 25 + c.rdiv2.toNat * 2 ^ 24 + c.rcnt.toNat * 2 ^ 14 + c.fix2.toNat * 2 ^ 6 +
        c.pdown.toNat * 2 ^ 5 + c.cp3st.toNat * 2 ^ 4 + c.cntrst.toNat * 2 ^ 3 + 2) ∧
    (w.toNat % 8 = 3 → ∃ c, decode (.config w) = .ok (.cfg3 c) ∧
      w.toNat = c.rsv31_24.toNat * 2 ^ 24 + c.bscm.toNat * 2 ^ 23 + c.abp.toNat * 2 ^ 22 +
        c.chgcan.toNat * 2 ^ 21 + c.rsv20_19.toNat * 2 ^ 19 + c.csr.toNat * 2 ^ 18 + c.rsv17.toNat * 2 ^ 17 +
        c.clkdivmode.toNat * 2 ^ 15 + c.clkdiv.toNat * 2 ^ 3 + 3) ∧
    (w.toNat % 8 = 4 → ∃ c, decode (.config w) = .ok (.cfg4 c) ∧
      w.toNat = c.rsv31_24.toNat * 2 ^ 24 + c.fbsel.toNat * 2 ^ 23 + c.divsel.toNat * 2 ^ 20 +
        c.bandsel.toNat * 2 ^ 12 + c.vcopd.toNat * 2 ^ 11 + c.mtld.toNat * 2 ^ 10 + c.auxsel.toNat * 2 ^ 9 +
        c.auxen.toNat * 2 ^ 8 + c.auxpwr.toNat * 2 ^ 6 + c.rfen.toNat * 2 ^ 5 + c.rfpwr.toNat * 2 ^ 3 + 4) ∧
    (w.toNat % 8 = 5 → ∃ c, decode (.config w) = .ok (.cfg5 c) ∧
      w.toNat = c.rsv31_24.toNat * 2 ^ 24 + c.ldpin.toNat * 2 ^ 22 + c.rsv21.toNat * 2 ^ 21 +
        c.rsv20_19.toNat * 2 ^ 19 + c.rsv18_3.toNat * 2 ^ 3 + 5)

/-- The decoder and the opcode table agree on every frame, and no frame matches two rows (R101). -/
def Obligations.DecoderAgreesWithOpcodeTable : Prop :=
  ∀ fr : Frame, (rowsOf fr).map OpRow.mnemonic =
    match decode fr with
    | .ok i => [i.mnemonic]
    | .error _ => []

/-- Words written out from the spec's encodings (95_test_vectors.md sections 2.7 and 3). -/
def Obligations.WordsOfTheTestVectorsDecode : Prop :=
  decode (.command 0x01000000003B9ACA00#72) = .ok (.setf 1000000000) ∧
  decode (.command 0x0200000000499602D2#72) = .ok (.setfopt 1234567890) ∧
  decode (.command 0x03000000000003D090#72) = .ok (.setstep 250000) ∧
  decode (.command 0x0400000000499602D2#72) = .ok (.getoptstep 1234567890) ∧
  decode (.config 0x1CE80000#32) = .ok (.cfg0 ⟨0, 14800, 0⟩) ∧
  decode (.config 0x0020803C#32) = .ok (.cfg4 ⟨0, 0, 2, 8, 0, 0, 0, 0, 0, 1, 3⟩)

/-- The four bytes of a word, most significant first (20_memory.md R62), and the word read from them. -/
def Obligations.TransportBytesAreBigEndian : Prop :=
  ∀ w : Word, ∃ b0 b1 b2 b3 : Byte, wordBytes w = [b0, b1, b2, b3] ∧
    w.toNat = b0.toNat * 2 ^ 24 + b1.toNat * 2 ^ 16 + b2.toNat * 2 ^ 8 + b3.toNat ∧
    decodeBytes (wordBytes w) = decode (.config w)

/-! ### A step -/

/-- A step takes the next frame whole and runs what it decodes to. -/
def Obligations.StepRunsTheDecodedInstruction : Prop :=
  ∀ (s : State) (fr : Frame) (rest : List Frame) (i : Instr), s.pending = fr :: rest → decode fr = .ok i →
    step s = exec i { s with pending := rest }

/-- With nothing presented the block waits, and a configuration word with index bits 6 or 7 has no meaning. Both are
the model's choices: log 2 (waiting is its reading of "after reset the block waits for its first command", R240) and
log 6 (such a word is never produced, 93_implementation_defined.md V3). -/
def Obligations.StepWithoutAnInstruction : Prop :=
  (∀ s : State, s.pending = [] → step s = .next s) ∧
  ∀ (s : State) (w : Word) (rest : List Frame), s.pending = .config w :: rest → 6 ≤ w.toNat % 8 →
    step s = .refused (.unusedWordIndex (BitVec.ofNat 3 w.toNat))

/-- R83, R197: a word whose opcode names no command changes nothing but the error registers. -/
def Obligations.IllegalCommandChangesOnlyTheErrorRegisters : Prop :=
  ∀ (s : State) (cw : CommandWord) (rest : List Frame), s.pending = .command cw :: rest →
    (cw.toNat / 2 ^ 64 = 0 ∨ 5 ≤ cw.toNat / 2 ^ 64) →
    step s = .next { s with
      pending := rest, errKind := some .illegalCommand, errCause := some .badOpcode, errIdx := 0 }

/-- Every step takes at most one frame: the block has no queue of its own (70_reset_and_hazards.md R249). -/
def Obligations.StepTakesOneFrame : Prop :=
  ∀ s t : State, step s = .next t → t.pending = s.pending.tail

/-! ### Reset and the registers nothing writes -/

/-- R45: the reset value of every element. -/
def Obligations.ResetGivesEveryElementItsValue : Prop :=
  State.reset.outFreq = 100000000#64 ∧ State.reset.stepSize = 1000000#64 ∧
  State.reset.refFreq = 10000000#64 ∧ State.reset.refSrc = .internal ∧ State.reset.outEn = true ∧
  State.reset.pwr = 3#2 ∧
  State.reset.regs =
    #v[0x00000000#32, 0x00008011#32, 0x00002FC2#32, 0x00600003#32, 0x00000004#32, 0x00580005#32] ∧
  State.reset.planV = false ∧ State.reset.pDivExp = 0#3 ∧ State.reset.pPresc = .low ∧
  State.reset.pInt = 0#16 ∧ State.reset.pR = 0#10 ∧ State.reset.pBs = 0#8 ∧
  State.reset.snap = false ∧ State.reset.bsClamp = false ∧ State.reset.res = 0#64 ∧
  State.reset.resRem = 0#10 ∧ State.reset.errKind = none ∧ State.reset.errCause = none ∧
  State.reset.errIdx = 0#3 ∧ State.reset.txi = 0#3 ∧ State.reset.txLog = []

/-- R241: reset takes its values as arguments, each of which fits its register in a well-formed configuration (R4), and no
step, under any parameters, changes REFFREQ, REFSRC, OUTEN or PWR. -/
def Obligations.ResetArgumentsLastForTheWholeLife : Prop :=
  (∀ c : Config,
    (State.resetWith c).refSrc = c.srcDefault ∧ (State.resetWith c).outEn = c.enDefault ∧
    (State.resetWith c).regs = c.initWord ∧
    (c.Wf →
      (State.resetWith c).refFreq.toNat = c.refDefault ∧ (State.resetWith c).stepSize.toNat = c.stepDefault ∧
      (State.resetWith c).outFreq.toNat = c.fDefault ∧ (State.resetWith c).pwr.toNat = c.pwrDefault ∧
      0 < c.refDefault ∧ 0 < c.stepDefault)) ∧
  (∀ (c : Config) (s t : State c.freqW c.pwrW), stepWith c s = .next t →
    t.refFreq = s.refFreq ∧ t.refSrc = s.refSrc ∧ t.outEn = s.outEn ∧ t.pwr = s.pwr) ∧
  ∀ s t : State, step s = .next t →
    t.refFreq = s.refFreq ∧ t.refSrc = s.refSrc ∧ t.outEn = s.outEn ∧ t.pwr = s.pwr

/-- R26: REFSRC is read by nothing: changing it changes nothing else, for every instruction. -/
def Obligations.ReferenceSourceIsNeverRead : Prop :=
  ∀ (i : Instr) (s : State) (x : RefSource),
    exec i { s with refSrc := x } = mapNext (fun t => { t with refSrc := x }) (exec i s)

/-! ### Shared operations -/

/-- R7: what each primitive answers, for a positive divisor. -/
def Obligations.ArithmeticPrimitives : Prop :=
  ∀ a b : Nat, 0 < b →
    (a % b + floorDiv a b * b = a ∧ a % b < b) ∧
    (floorDiv a b * b ≤ a ∧ ∀ q, q * b ≤ a → q ≤ floorDiv a b) ∧
    (a ≤ ceilDiv a b * b ∧ ∀ q, a ≤ q * b → ceilDiv a b ≤ q) ∧
    (2 * (roundHalfUp a b * b) ≤ 2 * a + b ∧ 2 * a < 2 * (roundHalfUp a b * b) + b) ∧
    (divides b a = true ↔ ∃ q, a = q * b) ∧
    (absDiff a b : Int) = |(a : Int) - (b : Int)|

/-- R210: `raise` ends the command: the kind and the cause are recorded, and for HardwareError alone TXI goes to
ERRIDX and is cleared. -/
def Obligations.RaiseRecordsTheError : Prop :=
  ∀ (e : Cause) (s : State),
    raise e s =
      if e = .txFail then
        { s with errKind := some .hardwareError, errCause := some .txFail, errIdx := s.txi, txi := 0 }
      else { s with errKind := some e.kind, errCause := some e }

/-- R211, R212, R84: the codes of the error registers, and the response they are read into. -/
def Obligations.ErrorCodesOfTheResponse : Prop :=
  (∀ s : State, responseOf s =
    ⟨errKindCode s.errKind, errCauseCode s.errCause, s.errIdx, s.res, s.resRem⟩) ∧
  ([none, some .rangeError, some .gridError, some .ratioError, some .hardwareError,
      some .illegalCommand].map errKindCode = [0#3, 1#3, 2#3, 3#3, 4#3, 5#3]) ∧
  ([Cause.fBelowMin, .fAboveMax, .noDivider, .stepZero, .ratioNotInteger, .ratioTooLarge, .notOnGrid,
      .intBelowNmin, .intAboveMax, .optNoCandidate, .txFail, .badOpcode].map
        (fun e => (errCauseCode (some e), errKindCode (some e.kind))) =
    [(1#4, 1#3), (2#4, 1#3), (3#4, 1#3), (4#4, 3#3), (5#4, 3#3), (6#4, 3#3), (7#4, 2#3), (8#4, 2#3),
     (9#4, 2#3), (10#4, 3#3), (11#4, 4#3), (12#4, 5#3)]) ∧
  errCauseCode none = 0#4

/-- R121: the divider search answers the smallest exponent, or fails with RangeError when there is none. -/
def Obligations.DividerSearchAnswersTheLeastExponent : Prop :=
  ∀ f : Nat,
    (∀ n, divExp f = .ok n ↔ leastExp f n) ∧
    ((∀ n ≤ 6, ¬ vcoOk f n) → divExp f = .error .noDivider ∧ Cause.noDivider.kind = .rangeError)

/-- The divider search never fails after the range check (40_planner.md, after rule R121), so NO_DIVIDER is never
raised by an instruction: no command ends with it, and no other instruction brings it about. -/
def Obligations.NoDividerIsNeverRaised : Prop :=
  (∀ f : Nat, inRange f → ∃ n, divExp f = .ok n) ∧
  ∀ (i : Instr) (s t : State), (isCommand i ∨ s.errCause ≠ some .noDivider) → exec i s = .next t →
    t.errCause ≠ some .noDivider

/-- R151: the band select and its clamp flag, for any ceiling; the decided one is 125 kHz. -/
def Obligations.BandSelectIsTheClampedCeiling : Prop :=
  Config.decided.maxPfd = 125000 ∧ ∀ (c : Config) (ref r : Nat), 0 < ref → 0 < r * c.maxPfd →
    ((ref ≤ r * c.maxPfd) → bandSelect c ref r = (1, false)) ∧
    (∀ q, r * c.maxPfd < ref → (q - 1) * (r * c.maxPfd) < ref → ref ≤ q * (r * c.maxPfd) →
      bandSelect c ref r = (min 255 q, decide (255 < q)))

/-! ### The encoder -/

/-- R160 to R166: the six words under the decided layout. -/
def Obligations.EncoderWritesTheDecidedWords : Prop :=
  ∀ (pl : Plan) (bs : Nat) (en : Bool) (pw : BitVec 2) (old : Vector Word 6),
    pl.n ≤ 6 → pl.int ≤ 65535 → pl.r ≤ 1023 → bs ≤ 255 →
    encodeWords Config.decided pl bs en pw.toNat old = mergedWords pl.n pl.p pl.int pl.r bs en pw old

/-- The merge property over any layout: no bit outside the dynamic fields changes. -/
def Obligations.EncoderKeepsStaticBits : Prop :=
  ∀ (c : Config) (pl : Plan) (bs : Nat) (en : Bool) (pw : Nat) (old : Vector Word 6) (i : WordIndex)
    (j : Nat), (∀ f ∈ c.layout.fields, ¬ (f.word = i ∧ f.lo ≤ j ∧ j ≤ f.hi)) →
    ((encodeWords c pl bs en pw old)[i]).getLsbD j = (old[i]).getLsbD j

/-- The dynamic bits do not depend on the old words: an encode over an encode is the later one alone. -/
def Obligations.EncoderForgetsTheOldPlan : Prop :=
  ∀ (c : Config) (x y : Plan) (bs bs' : Nat) (en en' : Bool) (pw pw' : Nat) (old : Vector Word 6),
    encodeWords c x bs en pw (encodeWords c y bs' en' pw' old) = encodeWords c x bs en pw old

/-- Over any well-formed layout every dynamic field reads back the value it was given. -/
def Obligations.EncodedFieldsReadBack : Prop :=
  ∀ (c : Config) (pl : Plan) (bs : Nat) (en : Bool) (pw : Nat) (old : Vector Word 6), c.Wf →
    pl.n ≤ 6 → pl.int ≤ 65535 → pl.r ≤ 1023 → bs ≤ 255 → pw < 2 ^ c.pwrW →
    let read := fun f : BitField =>
      ((encodeWords c pl bs en pw old)[f.word]).toNat / 2 ^ f.lo % 2 ^ (f.hi + 1 - f.lo)
    read c.layout.int = pl.int ∧ read c.layout.presc = (if pl.p = .high then 1 else 0) ∧
      read c.layout.rcnt = pl.r ∧ read c.layout.fix2 = c.fix2Value ∧ read c.layout.divsel = pl.n ∧
      read c.layout.bandsel = bs ∧ read c.layout.rfen = (if en then 1 else 0) ∧
      read c.layout.rfpwr = pw

/-! ### SETF -/

/-- R190 with a transport that answers: the plan is committed and the six words are sent; nothing else changes. -/
def Obligations.SetfCommitsAndTransmits : Prop :=
  ∀ (s : State) (f n : Nat) (rest : List TxReply), gridPlannable f n s → s.replies = okReplies 6 ++ rest →
    exec (.setf f) s = .next
      (sent (writesOf (wordsFor f n (f / s.stepSize.toNat) (s.refFreq.toNat / s.stepSize.toNat) s)) rest
        (committed f n (f / s.stepSize.toNat) (s.refFreq.toNat / s.stepSize.toNat) f false s))

/-- R190, R126, R217: the first failing check decides the error, and nothing but the error registers changes. -/
def Obligations.SetfRejectsAtTheFirstFailingCheck : Prop :=
  ∀ (s : State) (f : Nat) (k : ErrKind) (e : Cause),
    gridFailure f s.stepSize.toNat s.refFreq.toNat = some (k, e) →
    exec (.setf f) s = .next (rejected k e s)

/-- R182, R190: at the first failed write SETF ends with HardwareError; the plan stays committed and the words below
are not sent. -/
def Obligations.SetfEndsAtAFailedWrite : Prop :=
  ∀ (s : State) (f n : Nat) (pre post : List (WordIndex × Word)) (i : WordIndex) (v : Word)
    (rest : List TxReply), gridPlannable f n s →
    writesOf (wordsFor f n (f / s.stepSize.toNat) (s.refFreq.toNat / s.stepSize.toNat) s) =
      pre ++ (i, v) :: post →
    s.replies = okReplies pre.length ++ .answers .fail :: rest →
    exec (.setf f) s = .next
      (failed pre i v rest
        (committed f n (f / s.stepSize.toNat) (s.refFreq.toNat / s.stepSize.toNat) f false s))

/-- U8, R184: a write that is never answered leaves the command without a further step. -/
def Obligations.SetfHangsOnASilentTransport : Prop :=
  ∀ (s : State) (f n k : Nat) (rest : List TxReply), gridPlannable f n s → k < 6 →
    s.replies = okReplies k ++ .silent :: rest → exec (.setf f) s = .fault .transportSilent

/-- Whatever the transport answers, as long as it answers, SETF ends with its plan committed and every register but
ERRKIND, ERRCAUSE and ERRIDX settled; the free answers of log 3 are covered by every value. -/
def Obligations.SetfCompletesForEveryAnswer : Prop :=
  ∀ (s : State) (f n : Nat), gridPlannable f n s → TxReply.silent ∉ s.replies →
    ∃ (t : State) (log : List TxEntry), exec (.setf f) s = .next t ∧
      (t.errKind = none ∨ t.errKind = some .hardwareError) ∧
      t = { committed f n (f / s.stepSize.toNat) (s.refFreq.toNat / s.stepSize.toNat) f false s with
        errKind := t.errKind, errCause := t.errCause, errIdx := t.errIdx, txi := 0
        txLog := s.txLog ++ log, replies := t.replies, freeDraws := t.freeDraws }

/-- After a SETF that returns Ok the plan produces the target exactly (95_test_vectors.md section 4, 4). -/
def Obligations.SetfPlanIsExact : Prop :=
  ∀ (s t : State) (f : Nat), exec (.setf f) s = .next t → t.errKind = none →
    t.outFreq.toNat = f ∧ t.snap = false ∧
    t.pInt.toNat * t.refFreq.toNat = t.outFreq.toNat * t.pR.toNat

/-- Two equal SETFs in a row: the second sends the same six words and leaves REGS and the plan as they were. -/
def Obligations.RepeatedSetfSendsTheSameWords : Prop :=
  ∀ (s t u : State) (f : Nat), exec (.setf f) s = .next t → t.errKind = none →
    exec (.setf f) t = .next u → u.errKind = none →
    ∃ six : List TxEntry, six.length = 6 ∧ t.txLog = s.txLog ++ six ∧ u.txLog = t.txLog ++ six ∧
      u.regs = t.regs ∧ planOf u = planOf t ∧ u.pBs = t.pBs ∧ u.outFreq = t.outFreq

/-! ### SETFOPT and GETOPTSTEP -/

/-- R191 with a transport that answers: the best pair is committed, sent and reported; STEPSIZE is left alone. -/
def Obligations.SetfoptCommitsTheBestPair : Prop :=
  ∀ (s : State) (f n N : Nat) (rest : List TxReply), optPlannable f n N s →
    s.replies = okReplies 6 ++ rest →
    exec (.setfopt f) s = .next
      (sent (writesOf (wordsFor f n N (divisorOf f s.refFreq.toNat N) s)) rest
        (committedOpt f n N (divisorOf f s.refFreq.toNat N) s))

/-- R191, R182: at the first failed write SETFOPT ends with HardwareError, its plan and response value written. -/
def Obligations.SetfoptEndsAtAFailedWrite : Prop :=
  ∀ (s : State) (f n N : Nat) (pre post : List (WordIndex × Word)) (i : WordIndex) (v : Word)
    (rest : List TxReply), optPlannable f n N s →
    writesOf (wordsFor f n N (divisorOf f s.refFreq.toNat N) s) = pre ++ (i, v) :: post →
    s.replies = okReplies pre.length ++ .answers .fail :: rest →
    exec (.setfopt f) s = .next
      (failed pre i v rest (committedOpt f n N (divisorOf f s.refFreq.toNat N) s))

/-- U8, R184: a write that is never answered leaves SETFOPT without a further step. -/
def Obligations.SetfoptHangsOnASilentTransport : Prop :=
  ∀ (s : State) (f n N k : Nat) (rest : List TxReply), optPlannable f n N s → k < 6 →
    s.replies = okReplies k ++ .silent :: rest → exec (.setfopt f) s = .fault .transportSilent

/-- Whatever the transport answers, as long as it answers, SETFOPT ends with its plan and response value committed; the
free answers of log 3 are covered by every value. -/
def Obligations.SetfoptCompletesForEveryAnswer : Prop :=
  ∀ (s : State) (f n N : Nat), optPlannable f n N s → TxReply.silent ∉ s.replies →
    ∃ (t : State) (log : List TxEntry), exec (.setfopt f) s = .next t ∧
      (t.errKind = none ∨ t.errKind = some .hardwareError) ∧
      t = { committedOpt f n N (divisorOf f s.refFreq.toNat N) s with
        errKind := t.errKind, errCause := t.errCause, errIdx := t.errIdx, txi := 0
        txLog := s.txLog ++ log, replies := t.replies, freeDraws := t.freeDraws }

/-- R193: the query answers `REFFREQ / r` of the best pair and changes nothing but the result and error registers. -/
def Obligations.GetoptstepAnswersTheGridStep : Prop :=
  ∀ (s : State) (f n N : Nat), optPlannable f n N s →
    exec (.getoptstep f) s = .next
      { accepted s with
        res := BitVec.ofNat 64 (s.refFreq.toNat / divisorOf f s.refFreq.toNat N)
        resRem := BitVec.ofNat 10 (s.refFreq.toNat % divisorOf f s.refFreq.toNat N) }

/-- R217: the two optimal commands are rejected for a target out of range, and for one in range without a candidate. -/
def Obligations.OptimalCommandsRejectedForRangeOrNoCandidate : Prop :=
  ∀ (s : State) (f : Nat) (i : Instr), (i = .setfopt f ∨ i = .getoptstep f) →
    (f < 40000000 → exec i s = .next (rejected .rangeError .fBelowMin s)) ∧
    (4400000000 < f → exec i s = .next (rejected .rangeError .fAboveMax s)) ∧
    (inRange f → (∀ N, ¬ candidate f s.refFreq.toNat N) →
      exec i s = .next (rejected .ratioError .optNoCandidate s))

/-- The response of SETFOPT is exact: RES + RESREM / P_R is the frequency of the committed plan, which keeps the
bounds of a plan. -/
def Obligations.SetfoptResponseIsExact : Prop :=
  ∀ (s t : State) (f : Nat), exec (.setfopt f) s = .next t →
    (t.errKind = none ∨ t.errKind = some .hardwareError) →
    1 ≤ t.pR.toNat ∧ nminOf f ≤ t.pInt.toNat ∧
    t.res.toNat * t.pR.toNat + t.resRem.toNat = t.pInt.toNat * s.refFreq.toNat ∧
    t.resRem.toNat < t.pR.toNat ∧ t.outFreq = t.res ∧
    (t.snap = true ↔ t.pInt.toNat * s.refFreq.toNat ≠ f * t.pR.toNat)

/-- The response of GETOPTSTEP is exact, and with remainder 0 it is a stepsize that SETSTEP accepts. -/
def Obligations.GetoptstepResponseIsAStepsize : Prop :=
  ∀ (s t : State) (f : Nat), 0 < s.refFreq.toNat → exec (.getoptstep f) s = .next t → t.errKind = none →
    ∃ r, 1 ≤ r ∧ r ≤ 1023 ∧ t.res.toNat * r + t.resRem.toNat = s.refFreq.toNat ∧ t.resRem.toNat < r ∧
      (t.resRem = 0 → exec (.setstep t.res.toNat) t = .next { accepted t with stepSize := t.res })

/-- 90_conflicts.md C5: at the default reference no target in the range is rejected by the optimal commands. -/
def Obligations.OptimalCommandsAcceptEveryTargetAtTenMegahertz : Prop :=
  ∀ (s : State) (f : Nat), s.refFreq = 10000000#64 → inRange f → TxReply.silent ∉ s.replies →
    (∃ t, exec (.setfopt f) s = .next t ∧ (t.errKind = none ∨ t.errKind = some .hardwareError)) ∧
    ∃ t, exec (.getoptstep f) s = .next t ∧ t.errKind = none

/-- The optimal commands never read STEPSIZE. -/
def Obligations.OptimalCommandsIgnoreTheStepsize : Prop :=
  ∀ (s : State) (f : Nat) (x : BitVec 64) (i : Instr), (i = .setfopt f ∨ i = .getoptstep f) →
    exec i { s with stepSize := x } = mapNext (fun t => { t with stepSize := x }) (exec i s)

/-! ### SETSTEP -/

/-- R192, whose body the spec marks as its own reading (D13): the stepsize is checked against the reference and stored;
nothing else changes. -/
def Obligations.SetstepStoresACheckedStepsize : Prop :=
  ∀ (s : State) (hz : Nat),
    exec (.setstep hz) s = .next
      (match ratioFailure hz s.refFreq.toNat with
      | some (k, e) => rejected k e s
      | none => { accepted s with stepSize := BitVec.ofNat 64 hz })

/-! ### Transport writes -/

/-- R180, R182: `TxWrite` of one word, at any point of a transmit step. TXI holds the index of the word (R40), TXLOG gets
the entry with the answer (R42), and nothing else changes but where the answer came from: the settled one, or the free
value of log 3 when none is settled, whatever that is. While the transport is silent there is no answer, and a transmit
step has no further step (R184; log 5). -/
def Obligations.TxWriteRecordsTheWordAndItsAnswer : Prop :=
  ∀ (s : State) (i : WordIndex) (v : Word),
    (∀ (a : TxAnswer) (rest : List TxReply), s.replies = .answers a :: rest →
      txWrite i v s = (a, { s with
        txi := BitVec.ofNat 3 i, txLog := s.txLog ++ [⟨i, v, a⟩], replies := rest })) ∧
    (s.replies = [] →
      txWrite i v s = (Config.freeAnswer s.freeDraws, { s with
        txi := BitVec.ofNat 3 i, txLog := s.txLog ++ [⟨i, v, Config.freeAnswer s.freeDraws⟩],
        freeDraws := s.freeDraws + 1 })) ∧
    (∀ rest : List TxReply, s.replies = .silent :: rest → transmit s = .fault .transportSilent)

/-! ### Whole-machine rules -/

/-- Outside the frequency-set commands nothing writes REGS, the plan registers, OUTFREQ or the flags, and no command
but SETSTEP writes STEPSIZE (10_state.md R46); nothing else issues a transport write (20_memory.md R60). -/
def Obligations.OnlyACommitWritesThePlan : Prop :=
  ∀ (i : Instr) (s t : State), exec i s = .next t →
    (¬ isSet i → t.regs = s.regs ∧ t.planV = s.planV ∧ planOf t = planOf s ∧ t.pBs = s.pBs ∧
      t.outFreq = s.outFreq ∧ t.snap = s.snap ∧ t.bsClamp = s.bsClamp) ∧
    ((∀ hz, i ≠ .setstep hz) → t.stepSize = s.stepSize) ∧
    (¬ isSet i → t.txLog = s.txLog)

/-- R214: a command that ends with an error other than HardwareError changes only the error registers. -/
def Obligations.ValidationErrorsArePrecise : Prop :=
  ∀ (s t : State) (cw : CommandWord) (rest : List Frame), s.pending = .command cw :: rest →
    step s = .next t → t.errKind ≠ none → t.errKind ≠ some .hardwareError →
    t = { s with
      pending := rest, errKind := t.errKind, errCause := t.errCause, errIdx := t.errIdx }

/-- What an instruction adds to TXLOG is nothing, or the six words in the order 5 to 0 as they stand in REGS, or a prefix
of them that ends in a failed entry (20_memory.md, the rules (a) to (c) of section 6). -/
def Obligations.CommandLogIsOrdered : Prop :=
  ∀ (i : Instr) (s t : State), exec i s = .next t →
    t.txLog = s.txLog ∨ t.txLog = s.txLog ++ okLog (writesOf t.regs) ∨
    ∃ (pre post : List (WordIndex × Word)) (j : WordIndex) (v : Word),
      writesOf t.regs = pre ++ (j, v) :: post ∧
      t.txLog = s.txLog ++ okLog pre ++ [⟨j, v, .fail⟩] ∧ t.errKind = some .hardwareError ∧
      t.errIdx = BitVec.ofNat 3 j

/-- R66, R248: after a frequency-set command that returns Ok the chip's effective configuration is REGS, whatever the
chip held before, when the transport delivers in order (log 17). -/
def Obligations.SuccessfulSetTakesEffectAtTheChip : Prop :=
  ∀ (i : Instr) (s t : State) (arrived : List TxEntry), isSet i → exec i s = .next t → t.errKind = none →
    DeliversInOrder t.txLog arrived →
    (chipAfter arrived).effective = some (t.regs.map some) ∧ (chipAfter arrived).inDoubt = false

/-- R246: after a HardwareError the words above ERRIDX are buffered at the chip, the word at ERRIDX is unknown, those
below are as they were, and the effective configuration is the old one (in doubt when ERRIDX is 0), when the transport
delivers in order (log 17). The form of "unknown" is the model's choice (log 7). -/
def Obligations.FailedSetLeavesTheOldConfigurationInEffect : Prop :=
  ∀ (i : Instr) (s t : State) (before arrived : List TxEntry), isSet i → exec i s = .next t →
    t.errKind = some .hardwareError → DeliversInOrder s.txLog before → DeliversInOrder t.txLog arrived →
    (chipAfter arrived).effective = (chipAfter before).effective ∧
    ((chipAfter arrived).inDoubt = ((chipAfter before).inDoubt || decide (t.errIdx = 0))) ∧
    ∀ j : WordIndex,
      (t.errIdx.toNat < j → (chipAfter arrived).held[j] = some t.regs[j]) ∧
      (t.errIdx.toNat = j → (chipAfter arrived).held[j] = none) ∧
      ((j : Nat) < t.errIdx.toNat → (chipAfter arrived).held[j] = (chipAfter before).held[j])

/-- S8, R170: no step changes a static bit of a configuration word. -/
def Obligations.NoStepChangesAStaticBit : Prop :=
  ∀ (s t : State) (i : WordIndex), step s = .next t →
    t.regs[i] &&& ~~~(dynamicBits[i]) = s.regs[i] &&& ~~~(dynamicBits[i])

/-! ### The invariant -/

/-- The invariant holds after reset, for every well-formed set of parameters, the decided one among them. -/
def Obligations.InvariantHoldsAfterReset : Prop :=
  Config.decided.Wf ∧ ∀ c : Config, c.Wf → Inv c (State.resetWith c)

/-- Every step keeps the invariant, from every state that has it, under every well-formed set of parameters, and so under
the decided one. -/
def Obligations.EveryStepKeepsTheInvariant : Prop :=
  (∀ c : Config, c.Wf → ∀ s t : State c.freqW c.pwrW, Inv c s → stepWith c s = .next t → Inv c t) ∧
  ∀ s t : State, Inv Config.decided s → step s = .next t → Inv Config.decided t

/-! ### Configuration words -/

/-- CFG0 to CFG5: a configuration word that is presented on its own changes nothing of the block (R21, R32, R60; log 1).
Where a successful write of it arrives, the chip holds it at its index, and word 0 alone latches what is held (R66). -/
def Obligations.ConfigWordActsAtTheChipAlone : Prop :=
  ∀ (s : State) (x : Instr) (w : Word) (i : WordIndex), encode x = .config w → w.toNat % 8 = i →
    exec x s = .next s ∧
    ∀ ch : Chip, (ch.absorb ⟨i, w, .ok⟩).held[i] = some w ∧
      (∀ j : WordIndex, j ≠ i → (ch.absorb ⟨i, w, .ok⟩).held[j] = ch.held[j]) ∧
      (ch.absorb ⟨i, w, .ok⟩).effective =
        if i = 0 then some (ch.absorb ⟨i, w, .ok⟩).held else ch.effective

/-- R92 to R98: the words that a frequency-set command sends, split into their fields, hold the plan. The index bits of
the stored words (R22) are a premise: they are part of the invariant. -/
def Obligations.TransmittedWordsReadBackThePlan : Prop :=
  ∀ (i : Instr) (s t : State), isSet i → (∀ j : WordIndex, (s.regs[j]).toNat % 8 = j) → exec i s = .next t →
    (t.errKind = none ∨ t.errKind = some .hardwareError) →
    ∃ c0 c1 c2 c3 c4 c5, decode (.config t.regs[0]) = .ok (.cfg0 c0) ∧ decode (.config t.regs[1]) = .ok (.cfg1 c1) ∧
      decode (.config t.regs[2]) = .ok (.cfg2 c2) ∧ decode (.config t.regs[3]) = .ok (.cfg3 c3) ∧
      decode (.config t.regs[4]) = .ok (.cfg4 c4) ∧ decode (.config t.regs[5]) = .ok (.cfg5 c5) ∧
      c0.int = t.pInt ∧ (c1.presc = 1 ↔ t.pPresc = .high) ∧ c2.rcnt = t.pR ∧ c2.fix2 = 0xBF ∧
      c4.divsel = t.pDivExp ∧ c4.bandsel = t.pBs ∧ (c4.rfen = 1 ↔ t.outEn = true) ∧ c4.rfpwr = t.pwr

/-! ### Every configuration -/

/-- R4, R41: the parameters are arguments of the step. `exec` and `step` are the decided ones; the machine of a
configuration starts from its reset values and runs what it decodes. -/
def Obligations.ParametersAreArgumentsOfTheStep : Prop :=
  (∀ (i : Instr) (s : State), execWith Config.decided i s = exec i s) ∧
  (∀ s : State, stepWith Config.decided s = step s) ∧
  ∀ c : Config, (machineOf c).reset = State.resetWith c ∧ (machineOf c).step = stepWith c ∧
    ∀ (s : State c.freqW c.pwrW) (fr : Frame) (rest : List Frame) (i : Instr), s.pending = fr :: rest →
      decode fr = .ok i → stepWith c s = execWith c i { s with pending := rest }

/-- R123, R126, R151: under any parameters SETF takes its prescaler from PRESC_THRESHOLD and its band select from MAX_PFD. -/
def Obligations.SetfReadsTheParameters : Prop :=
  ∀ (c : Config) (s t : State c.freqW c.pwrW) (f : Nat), c.Wf → 0 < s.refFreq.toNat →
    execWith c (.setf f) s = .next t → (t.errKind = none ∨ t.errKind = some .hardwareError) →
    t.pPresc = (if c.prescThreshold ≤ f then .high else .low) ∧
    (if c.prescThreshold ≤ f then 75 else 23) ≤ t.pInt.toNat ∧
    t.pInt.toNat * s.stepSize.toNat = f ∧ t.pR.toNat * s.stepSize.toNat = s.refFreq.toNat ∧
    t.pBs.toNat = min 255 ((s.refFreq.toNat + t.pR.toNat * c.maxPfd - 1) / (t.pR.toNat * c.maxPfd)) ∧
    (t.bsClamp = true ↔ 255 * (t.pR.toNat * c.maxPfd) < s.refFreq.toNat)

/-- R7, R131: under either tie rule the reference divisor of SETFOPT is nearest to `N * REFFREQ / f`, and ROUND_TIE
decides a tie. -/
def Obligations.SetfoptReadsTheTieRule : Prop :=
  ∀ (c : Config) (s t : State c.freqW c.pwrW) (f : Nat), c.Wf → execWith c (.setfopt f) s = .next t →
    (t.errKind = none ∨ t.errKind = some .hardwareError) →
    let exact := 2 * (t.pInt.toNat * s.refFreq.toNat)
    let rounded := 2 * (t.pR.toNat * f)
    exact ≤ rounded + f ∧ rounded ≤ exact + f ∧
    (exact = rounded + f → c.roundTie = .halfEven ∧ t.pR.toNat % 2 = 0) ∧
    (rounded = exact + f → c.roundTie = .halfUp ∨ t.pR.toNat % 2 = 0)

/-! ### Acceptance by the optimal commands -/

/-- R132, R217: with a candidate the two optimal commands are not rejected: GETOPTSTEP ends with no error, and SETFOPT,
while the transport answers, with none or HardwareError. -/
def Obligations.OptimalCommandsAcceptATargetWithACandidate : Prop :=
  ∀ (s : State) (f : Nat), inRange f → (∃ N, candidate f s.refFreq.toNat N) →
    (∃ t, exec (.getoptstep f) s = .next t ∧ t.errKind = none) ∧
    (TxReply.silent ∉ s.replies →
      ∃ t, exec (.setfopt f) s = .next t ∧ (t.errKind = none ∨ t.errKind = some .hardwareError))
end

