-- ==== Sys2Proof/Laws/Arith.lean ====
section
/-! SUPPORT. What the arithmetic primitives answer (00_scope.md R7). -/

namespace Sys2Proof.Laws

open Sys2Proof Sys2Proof.Machine

theorem floorDiv_eq (a b : Nat) : floorDiv a b = a / b := rfl

theorem ceilDiv_le_iff {a b : Nat} (hb : 0 < b) (q : Nat) : ceilDiv a b ≤ q ↔ a ≤ q * b := by
  have h := Nat.div_lt_iff_lt_mul (x := a + b - 1) (y := q + 1) hb
  rw [Nat.add_mul] at h
  simp only [ceilDiv]
  omega

theorem le_ceilDiv_mul {a b : Nat} (hb : 0 < b) : a ≤ ceilDiv a b * b :=
  (ceilDiv_le_iff hb _).1 le_rfl

theorem ceilDiv_pos {a b : Nat} (ha : 0 < a) (hb : 0 < b) : 1 ≤ ceilDiv a b := by
  by_contra h
  have := (ceilDiv_le_iff (a := a) hb 0).1 (by omega)
  omega

theorem divides_iff (b a : Nat) : divides b a = true ↔ b ∣ a := by
  simp [divides, Nat.dvd_iff_mod_eq_zero]

theorem absDiff_eq_zero_iff (x y : Nat) : absDiff x y = 0 ↔ x = y := by
  simp only [absDiff]; split <;> omega

theorem roundHalfUp_bounds (a : Nat) {b : Nat} (hb : 0 < b) :
    2 * (roundHalfUp a b * b) ≤ 2 * a + b ∧ 2 * a < 2 * (roundHalfUp a b * b) + b := by
  have h1 := Nat.div_mul_le_self (2 * a + b) (2 * b)
  have h2 := Nat.lt_div_mul_add (a := 2 * a + b) (b := 2 * b) (by omega)
  have e : (2 * a + b) / (2 * b) * (2 * b) = 2 * ((2 * a + b) / (2 * b) * b) := by
    rw [← Nat.mul_assoc, Nat.mul_comm _ 2, Nat.mul_assoc]
  simp only [roundHalfUp, floorDiv]
  omega

/-- Under either tie rule the result is a nearest integer: `2 * |a - q*b| ≤ b`. -/
theorem roundDiv_bounds (t : RoundTie) (a : Nat) {b : Nat} (hb : 0 < b) :
    2 * (roundDiv t a b * b) ≤ 2 * a + b ∧ 2 * a ≤ 2 * (roundDiv t a b * b) + b := by
  have up := roundHalfUp_bounds a hb
  cases t with
  | halfUp => simp only [roundDiv]; omega
  | halfEven =>
    simp only [roundDiv, roundHalfEven]
    split
    · have h := Nat.div_add_mod a b
      rw [Nat.mul_comm] at h
      rcases Nat.mod_two_eq_zero_or_one (a / b) with e | e <;> simp only [e, Nat.add_mul] <;> omega
    · omega

theorem absDiff_roundDiv_le (t : RoundTie) (a : Nat) {b : Nat} (hb : 0 < b) :
    2 * absDiff a (roundDiv t a b * b) ≤ b := by
  have := roundDiv_bounds t a hb
  simp only [absDiff]; split <;> omega

/-- A quotient that is at most `k` rounds to at most `k`. -/
theorem roundDiv_le (t : RoundTie) {a b k : Nat} (hb : 0 < b) (h : a ≤ k * b) : roundDiv t a b ≤ k := by
  by_contra hk
  have hm : (k + 1) * b ≤ roundDiv t a b * b := Nat.mul_le_mul_right b (by omega)
  have := roundDiv_bounds t a hb
  rw [Nat.add_mul] at hm
  omega

end Sys2Proof.Laws
end

