-- ==== Sys2Proof/Laws/State.lean ====
section
/-! SUPPORT. What each operation on the state does to each field: one lemma per field per operation. -/

namespace Sys2Proof.Laws

open Sys2Proof Sys2Proof.Machine

variable {fw pw : Nat} (s : State fw pw)

/-! ### accept (R194) -/

@[simp] theorem accept_outFreq : (accept s).outFreq = s.outFreq := rfl
@[simp] theorem accept_stepSize : (accept s).stepSize = s.stepSize := rfl
@[simp] theorem accept_refFreq : (accept s).refFreq = s.refFreq := rfl
@[simp] theorem accept_refSrc : (accept s).refSrc = s.refSrc := rfl
@[simp] theorem accept_outEn : (accept s).outEn = s.outEn := rfl
@[simp] theorem accept_pwr : (accept s).pwr = s.pwr := rfl
@[simp] theorem accept_regs : (accept s).regs = s.regs := rfl
@[simp] theorem accept_planV : (accept s).planV = s.planV := rfl
@[simp] theorem accept_pDivExp : (accept s).pDivExp = s.pDivExp := rfl
@[simp] theorem accept_pPresc : (accept s).pPresc = s.pPresc := rfl
@[simp] theorem accept_pInt : (accept s).pInt = s.pInt := rfl
@[simp] theorem accept_pR : (accept s).pR = s.pR := rfl
@[simp] theorem accept_pBs : (accept s).pBs = s.pBs := rfl
@[simp] theorem accept_snap : (accept s).snap = s.snap := rfl
@[simp] theorem accept_bsClamp : (accept s).bsClamp = s.bsClamp := rfl
@[simp] theorem accept_res : (accept s).res = s.res := rfl
@[simp] theorem accept_resRem : (accept s).resRem = s.resRem := rfl
@[simp] theorem accept_errKind : (accept s).errKind = none := rfl
@[simp] theorem accept_errCause : (accept s).errCause = none := rfl
@[simp] theorem accept_errIdx : (accept s).errIdx = 0 := rfl
@[simp] theorem accept_txi : (accept s).txi = s.txi := rfl
@[simp] theorem accept_txLog : (accept s).txLog = s.txLog := rfl
@[simp] theorem accept_pending : (accept s).pending = s.pending := rfl
@[simp] theorem accept_replies : (accept s).replies = s.replies := rfl
@[simp] theorem accept_freeDraws : (accept s).freeDraws = s.freeDraws := rfl

/-! ### commit (R195) -/

section
variable (pl : Plan) (bs : Nat × Bool) (ws : Vector Word 6) (fo : Nat) (sn : Bool)

@[simp] theorem commit_outFreq : (commit pl bs ws fo sn s).outFreq = BitVec.ofNat fw fo := rfl
@[simp] theorem commit_stepSize : (commit pl bs ws fo sn s).stepSize = s.stepSize := rfl
@[simp] theorem commit_refFreq : (commit pl bs ws fo sn s).refFreq = s.refFreq := rfl
@[simp] theorem commit_refSrc : (commit pl bs ws fo sn s).refSrc = s.refSrc := rfl
@[simp] theorem commit_outEn : (commit pl bs ws fo sn s).outEn = s.outEn := rfl
@[simp] theorem commit_pwr : (commit pl bs ws fo sn s).pwr = s.pwr := rfl
@[simp] theorem commit_regs : (commit pl bs ws fo sn s).regs = ws := rfl
@[simp] theorem commit_planV : (commit pl bs ws fo sn s).planV = true := rfl
@[simp] theorem commit_pDivExp : (commit pl bs ws fo sn s).pDivExp = BitVec.ofNat 3 pl.n := rfl
@[simp] theorem commit_pPresc : (commit pl bs ws fo sn s).pPresc = pl.p := rfl
@[simp] theorem commit_pInt : (commit pl bs ws fo sn s).pInt = BitVec.ofNat 16 pl.int := rfl
@[simp] theorem commit_pR : (commit pl bs ws fo sn s).pR = BitVec.ofNat 10 pl.r := rfl
@[simp] theorem commit_pBs : (commit pl bs ws fo sn s).pBs = BitVec.ofNat 8 bs.1 := rfl
@[simp] theorem commit_snap : (commit pl bs ws fo sn s).snap = sn := rfl
@[simp] theorem commit_bsClamp : (commit pl bs ws fo sn s).bsClamp = bs.2 := rfl
@[simp] theorem commit_res : (commit pl bs ws fo sn s).res = s.res := rfl
@[simp] theorem commit_resRem : (commit pl bs ws fo sn s).resRem = s.resRem := rfl
@[simp] theorem commit_errKind : (commit pl bs ws fo sn s).errKind = s.errKind := rfl
@[simp] theorem commit_errCause : (commit pl bs ws fo sn s).errCause = s.errCause := rfl
@[simp] theorem commit_errIdx : (commit pl bs ws fo sn s).errIdx = s.errIdx := rfl
@[simp] theorem commit_txi : (commit pl bs ws fo sn s).txi = s.txi := rfl
@[simp] theorem commit_txLog : (commit pl bs ws fo sn s).txLog = s.txLog := rfl
@[simp] theorem commit_pending : (commit pl bs ws fo sn s).pending = s.pending := rfl
@[simp] theorem commit_replies : (commit pl bs ws fo sn s).replies = s.replies := rfl
@[simp] theorem commit_freeDraws : (commit pl bs ws fo sn s).freeDraws = s.freeDraws := rfl

end

/-! ### setResult (R34) -/

@[simp] theorem setResult_outFreq (q m : Nat) : (setResult q m s).outFreq = s.outFreq := rfl
@[simp] theorem setResult_stepSize (q m : Nat) : (setResult q m s).stepSize = s.stepSize := rfl
@[simp] theorem setResult_refFreq (q m : Nat) : (setResult q m s).refFreq = s.refFreq := rfl
@[simp] theorem setResult_refSrc (q m : Nat) : (setResult q m s).refSrc = s.refSrc := rfl
@[simp] theorem setResult_outEn (q m : Nat) : (setResult q m s).outEn = s.outEn := rfl
@[simp] theorem setResult_pwr (q m : Nat) : (setResult q m s).pwr = s.pwr := rfl
@[simp] theorem setResult_regs (q m : Nat) : (setResult q m s).regs = s.regs := rfl
@[simp] theorem setResult_planV (q m : Nat) : (setResult q m s).planV = s.planV := rfl
@[simp] theorem setResult_pDivExp (q m : Nat) : (setResult q m s).pDivExp = s.pDivExp := rfl
@[simp] theorem setResult_pPresc (q m : Nat) : (setResult q m s).pPresc = s.pPresc := rfl
@[simp] theorem setResult_pInt (q m : Nat) : (setResult q m s).pInt = s.pInt := rfl
@[simp] theorem setResult_pR (q m : Nat) : (setResult q m s).pR = s.pR := rfl
@[simp] theorem setResult_pBs (q m : Nat) : (setResult q m s).pBs = s.pBs := rfl
@[simp] theorem setResult_snap (q m : Nat) : (setResult q m s).snap = s.snap := rfl
@[simp] theorem setResult_bsClamp (q m : Nat) : (setResult q m s).bsClamp = s.bsClamp := rfl
@[simp] theorem setResult_res (q m : Nat) : (setResult q m s).res = BitVec.ofNat 64 q := rfl
@[simp] theorem setResult_resRem (q m : Nat) : (setResult q m s).resRem = BitVec.ofNat 10 m := rfl
@[simp] theorem setResult_errKind (q m : Nat) : (setResult q m s).errKind = s.errKind := rfl
@[simp] theorem setResult_errCause (q m : Nat) : (setResult q m s).errCause = s.errCause := rfl
@[simp] theorem setResult_errIdx (q m : Nat) : (setResult q m s).errIdx = s.errIdx := rfl
@[simp] theorem setResult_txi (q m : Nat) : (setResult q m s).txi = s.txi := rfl
@[simp] theorem setResult_txLog (q m : Nat) : (setResult q m s).txLog = s.txLog := rfl
@[simp] theorem setResult_pending (q m : Nat) : (setResult q m s).pending = s.pending := rfl
@[simp] theorem setResult_replies (q m : Nat) : (setResult q m s).replies = s.replies := rfl
@[simp] theorem setResult_freeDraws (q m : Nat) : (setResult q m s).freeDraws = s.freeDraws := rfl

/-! ### raise (R210) -/

section
variable (e : Cause)

@[simp] theorem raise_outFreq : (raise e s).outFreq = s.outFreq := by cases e <;> rfl
@[simp] theorem raise_stepSize : (raise e s).stepSize = s.stepSize := by cases e <;> rfl
@[simp] theorem raise_refFreq : (raise e s).refFreq = s.refFreq := by cases e <;> rfl
@[simp] theorem raise_refSrc : (raise e s).refSrc = s.refSrc := by cases e <;> rfl
@[simp] theorem raise_outEn : (raise e s).outEn = s.outEn := by cases e <;> rfl
@[simp] theorem raise_pwr : (raise e s).pwr = s.pwr := by cases e <;> rfl
@[simp] theorem raise_regs : (raise e s).regs = s.regs := by cases e <;> rfl
@[simp] theorem raise_planV : (raise e s).planV = s.planV := by cases e <;> rfl
@[simp] theorem raise_pDivExp : (raise e s).pDivExp = s.pDivExp := by cases e <;> rfl
@[simp] theorem raise_pPresc : (raise e s).pPresc = s.pPresc := by cases e <;> rfl
@[simp] theorem raise_pInt : (raise e s).pInt = s.pInt := by cases e <;> rfl
@[simp] theorem raise_pR : (raise e s).pR = s.pR := by cases e <;> rfl
@[simp] theorem raise_pBs : (raise e s).pBs = s.pBs := by cases e <;> rfl
@[simp] theorem raise_snap : (raise e s).snap = s.snap := by cases e <;> rfl
@[simp] theorem raise_bsClamp : (raise e s).bsClamp = s.bsClamp := by cases e <;> rfl
@[simp] theorem raise_res : (raise e s).res = s.res := by cases e <;> rfl
@[simp] theorem raise_resRem : (raise e s).resRem = s.resRem := by cases e <;> rfl
@[simp] theorem raise_errKind : (raise e s).errKind = some e.kind := by cases e <;> rfl
@[simp] theorem raise_errCause : (raise e s).errCause = some e := by cases e <;> rfl
@[simp] theorem raise_errIdx : (raise e s).errIdx = if e = .txFail then s.txi else s.errIdx := by cases e <;> rfl
@[simp] theorem raise_txi : (raise e s).txi = if e = .txFail then 0 else s.txi := by cases e <;> rfl
@[simp] theorem raise_txLog : (raise e s).txLog = s.txLog := by cases e <;> rfl
@[simp] theorem raise_pending : (raise e s).pending = s.pending := by cases e <;> rfl
@[simp] theorem raise_replies : (raise e s).replies = s.replies := by cases e <;> rfl
@[simp] theorem raise_freeDraws : (raise e s).freeDraws = s.freeDraws := by cases e <;> rfl

end

/-! ### the command port (R72) -/

@[simp] theorem present_outFreq (fr : Frame) : (present fr s).outFreq = s.outFreq := rfl
@[simp] theorem present_stepSize (fr : Frame) : (present fr s).stepSize = s.stepSize := rfl
@[simp] theorem present_refFreq (fr : Frame) : (present fr s).refFreq = s.refFreq := rfl
@[simp] theorem present_refSrc (fr : Frame) : (present fr s).refSrc = s.refSrc := rfl
@[simp] theorem present_outEn (fr : Frame) : (present fr s).outEn = s.outEn := rfl
@[simp] theorem present_pwr (fr : Frame) : (present fr s).pwr = s.pwr := rfl
@[simp] theorem present_regs (fr : Frame) : (present fr s).regs = s.regs := rfl
@[simp] theorem present_planV (fr : Frame) : (present fr s).planV = s.planV := rfl
@[simp] theorem present_pDivExp (fr : Frame) : (present fr s).pDivExp = s.pDivExp := rfl
@[simp] theorem present_pPresc (fr : Frame) : (present fr s).pPresc = s.pPresc := rfl
@[simp] theorem present_pInt (fr : Frame) : (present fr s).pInt = s.pInt := rfl
@[simp] theorem present_pR (fr : Frame) : (present fr s).pR = s.pR := rfl
@[simp] theorem present_pBs (fr : Frame) : (present fr s).pBs = s.pBs := rfl
@[simp] theorem present_snap (fr : Frame) : (present fr s).snap = s.snap := rfl
@[simp] theorem present_bsClamp (fr : Frame) : (present fr s).bsClamp = s.bsClamp := rfl
@[simp] theorem present_res (fr : Frame) : (present fr s).res = s.res := rfl
@[simp] theorem present_resRem (fr : Frame) : (present fr s).resRem = s.resRem := rfl
@[simp] theorem present_errKind (fr : Frame) : (present fr s).errKind = s.errKind := rfl
@[simp] theorem present_errCause (fr : Frame) : (present fr s).errCause = s.errCause := rfl
@[simp] theorem present_errIdx (fr : Frame) : (present fr s).errIdx = s.errIdx := rfl
@[simp] theorem present_txi (fr : Frame) : (present fr s).txi = s.txi := rfl
@[simp] theorem present_txLog (fr : Frame) : (present fr s).txLog = s.txLog := rfl
@[simp] theorem present_pending (fr : Frame) : (present fr s).pending = fr :: s.pending := rfl
@[simp] theorem present_replies (fr : Frame) : (present fr s).replies = s.replies := rfl
@[simp] theorem present_freeDraws (fr : Frame) : (present fr s).freeDraws = s.freeDraws := rfl

@[simp] theorem fetch_present (fr : Frame) : fetch (present fr s) = some (fr, s) := rfl

theorem fetch_nil (h : s.pending = []) : fetch s = none := by simp [fetch, h]

theorem fetch_cons {fr : Frame} {rest : List Frame} (h : s.pending = fr :: rest) :
    fetch s = some (fr, { s with pending := rest }) := by simp [fetch, h]

@[simp] theorem idle_eq : idle s = s := rfl

end Sys2Proof.Laws
end

