-- ==== Sys2Proof/Laws/Transport.lean ====
section
/-! SUPPORT. Everything a sequence of transport writes can do (43_transport.md). -/

namespace Sys2Proof.Laws

open Sys2Proof Sys2Proof.Machine

variable {fw pw : Nat}

/-- The log entries of a list of words that were all answered `ok`. -/
def okEntries (ws : List (WordIndex × Word)) : List TxEntry := ws.map fun p => ⟨p.1, p.2, .ok⟩

/-- The state after a list of writes that all succeeded. -/
def wroteAll (ws : List (WordIndex × Word)) (rs : List TxReply) (d : Nat) (s : State fw pw) : State fw pw :=
  { s with txi := 0, txLog := s.txLog ++ okEntries ws, replies := rs, freeDraws := d }

/-- The state after the writes of `pre` succeeded and that of word `i` failed (R182, R210). -/
def failedAt (pre : List (WordIndex × Word)) (i : WordIndex) (v : Word) (rs : List TxReply) (d : Nat)
    (s : State fw pw) : State fw pw :=
  { s with
    txi := 0, errKind := some .hardwareError, errCause := some .txFail, errIdx := BitVec.ofNat 3 i
    txLog := s.txLog ++ okEntries pre ++ [⟨i, v, .fail⟩], replies := rs, freeDraws := d }

/-- The replies that settle every one of `n` writes with `ok`. -/
def oks (n : Nat) : List TxReply := List.replicate n (.answers .ok)

@[simp] theorem oks_succ (n : Nat) : oks (n + 1) = .answers .ok :: oks n := rfl
@[simp] theorem oks_zero : oks 0 = [] := rfl

theorem hangs_oks (n : Nat) (rs : List TxReply) : hangs n (oks n ++ rs) = false := by
  induction n with
  | zero => rfl
  | succ n ih => simpa [hangs] using ih

theorem hangs_oks_fail (k m : Nat) (rs : List TxReply) :
    hangs (k + m) (oks k ++ .answers .fail :: rs) = false := by
  induction k with
  | zero => cases m <;> simp [hangs]
  | succ k ih => rw [Nat.succ_add]; simpa [hangs] using ih

theorem hangs_oks_silent (k m : Nat) (rs : List TxReply) :
    hangs (k + (m + 1)) (oks k ++ .silent :: rs) = true := by
  induction k with
  | zero => simp [hangs]
  | succ k ih => rw [Nat.succ_add]; simpa [hangs] using ih

/-- Writes never hang where no settled reply is `silent`. -/
theorem hangs_eq_false {rs : List TxReply} (h : TxReply.silent ∉ rs) (n : Nat) : hangs n rs = false := by
  induction n generalizing rs with
  | zero => rfl
  | succ n ih =>
    match rs, h with
    | [], _ => rfl
    | .answers .fail :: rs, _ => rfl
    | .answers .ok :: rs, h => exact ih (by simpa using h)
    | .silent :: rs, h => simp at h

/-- Everything one write can do: TXI holds the index, TXLOG gets the entry with the answer, and only the sources of the
answer change besides (R180). -/
theorem txWrite_eq (i : WordIndex) (v : Word) (s : State fw pw) :
    ∃ a rs d, txWrite i v s = (a, { s with
      txi := BitVec.ofNat 3 i, txLog := s.txLog ++ [⟨i, v, a⟩], replies := rs, freeDraws := d }) := by
  simp only [txWrite, takeAnswer]
  split <;> exact ⟨_, _, _, rfl⟩

/-- Everything a list of writes can do: all of them succeed, or one fails and the later ones are not sent. -/
theorem writeAll_cases (ws : List (WordIndex × Word)) (s : State fw pw) :
    (∃ rs d, writeAll ws s = wroteAll ws rs d s) ∨
      ∃ pre i v post rs d, ws = pre ++ (i, v) :: post ∧ writeAll ws s = failedAt pre i v rs d s := by
  induction ws generalizing s with
  | nil => exact .inl ⟨s.replies, s.freeDraws, by simp [writeAll, wroteAll, okEntries]⟩
  | cons p ws ih =>
    obtain ⟨i, v⟩ := p
    obtain ⟨a, rs, d, ha⟩ := txWrite_eq i v s
    cases a with
    | fail =>
      refine .inr ⟨[], i, v, ws, rs, d, rfl, ?_⟩
      simp [writeAll, ha, raise, Cause.kind, failedAt, okEntries]
    | ok =>
      simp only [writeAll, ha]
      rcases ih { s with
          txi := BitVec.ofNat 3 i, txLog := s.txLog ++ [⟨i, v, .ok⟩], replies := rs, freeDraws := d } with
        ⟨rs', d', h⟩ | ⟨pre, i', v', post, rs', d', rfl, h⟩
      · exact .inl ⟨rs', d', by rw [h]; simp [wroteAll, okEntries]⟩
      · exact .inr ⟨(i, v) :: pre, i', v', post, rs', d', rfl, by rw [h]; simp [failedAt, okEntries]⟩

/-- Inversion of `send`. -/
theorem send_next_iff (ws : List (WordIndex × Word)) (s t : State fw pw) :
    send ws s = .next t ↔ hangs ws.length s.replies = false ∧ t = writeAll ws s := by
  simp only [send]
  cases hangs ws.length s.replies <;> simp [eq_comm]

theorem send_cases {ws : List (WordIndex × Word)} {s t : State fw pw} (h : send ws s = .next t) :
    (∃ rs d, t = wroteAll ws rs d s) ∨
      ∃ pre i v post rs d, ws = pre ++ (i, v) :: post ∧ t = failedAt pre i v rs d s := by
  rw [((send_next_iff ws s t).1 h).2]
  exact writeAll_cases ws s

/-! ### Settled replies -/

theorem writeAll_oks (ws : List (WordIndex × Word)) (s : State fw pw) (rs : List TxReply)
    (h : s.replies = oks ws.length ++ rs) : writeAll ws s = wroteAll ws rs s.freeDraws s := by
  induction ws generalizing s with
  | nil => simp at h; simp [writeAll, wroteAll, okEntries, ← h]
  | cons p ws ih =>
    obtain ⟨i, v⟩ := p
    simp only [List.length_cons, oks_succ, List.cons_append] at h
    simp only [writeAll, txWrite, takeAnswer, h]
    rw [ih _ rfl]
    simp [wroteAll, okEntries]

theorem writeAll_oks_fail (pre post : List (WordIndex × Word)) (i : WordIndex) (v : Word) (s : State fw pw)
    (rs : List TxReply) (h : s.replies = oks pre.length ++ .answers .fail :: rs) :
    writeAll (pre ++ (i, v) :: post) s = failedAt pre i v rs s.freeDraws s := by
  induction pre generalizing s with
  | nil =>
    simp only [List.length_nil, oks_zero, List.nil_append] at h
    simp [writeAll, txWrite, takeAnswer, h, failedAt, okEntries, raise, Cause.kind]
  | cons p pre ih =>
    obtain ⟨j, w⟩ := p
    simp only [List.length_cons, oks_succ, List.cons_append] at h
    simp only [List.cons_append, writeAll, txWrite, takeAnswer, h]
    rw [ih _ rfl]
    simp [failedAt, okEntries]

theorem send_oks (ws : List (WordIndex × Word)) (s : State fw pw) (rs : List TxReply)
    (h : s.replies = oks ws.length ++ rs) : send ws s = .next (wroteAll ws rs s.freeDraws s) := by
  rw [send_next_iff, h, writeAll_oks ws s rs h]
  exact ⟨hangs_oks _ _, rfl⟩

theorem send_oks_fail (pre post : List (WordIndex × Word)) (i : WordIndex) (v : Word) (s : State fw pw)
    (rs : List TxReply) (h : s.replies = oks pre.length ++ .answers .fail :: rs) :
    send (pre ++ (i, v) :: post) s = .next (failedAt pre i v rs s.freeDraws s) := by
  rw [send_next_iff, h, writeAll_oks_fail pre post i v s rs h]
  exact ⟨by simpa using hangs_oks_fail pre.length (post.length + 1) rs, rfl⟩

theorem send_oks_silent (pre post : List (WordIndex × Word)) (i : WordIndex) (v : Word) (s : State fw pw)
    (rs : List TxReply) (h : s.replies = oks pre.length ++ .silent :: rs) :
    send (pre ++ (i, v) :: post) s = .fault .transportSilent := by
  have := hangs_oks_silent pre.length post.length rs
  simp [send, h, this]

@[simp] theorem txWords_eq (regs : Vector Word 6) :
    txWords regs =
      [((5 : WordIndex), regs[5]), (4, regs[4]), (3, regs[3]), (2, regs[2]), (1, regs[1]), (0, regs[0])] := rfl

end Sys2Proof.Laws
end

