-- ==== Sys2Proof/Laws/Chip.lean ====
section
/-! SUPPORT. What a TXLOG leaves at the chip (20_memory.md R66), one entry at a time. -/

namespace Sys2Proof.Laws

open Sys2Proof Sys2Proof.Machine

theorem chipAfter_append (a b : List TxEntry) : chipAfter (a ++ b) = b.foldl Chip.absorb (chipAfter a) :=
  List.foldl_append ..

theorem absorb_ok_held (ch : Chip) (i : WordIndex) (v : Word) :
    (ch.absorb ⟨i, v, .ok⟩).held = ch.held.set i (some v) := by
  simp only [Chip.absorb]; split <;> rfl

theorem absorb_fail_held (ch : Chip) (i : WordIndex) (v : Word) :
    (ch.absorb ⟨i, v, .fail⟩).held = ch.held.set i none := rfl

/-- Only a successful write of word 0 latches (R66). -/
theorem absorb_effective (ch : Chip) (e : TxEntry) (h : e.answer = .fail ∨ e.index ≠ 0) :
    (ch.absorb e).effective = ch.effective := by
  obtain ⟨i, v, a⟩ := e
  cases a with
  | ok => simp [Chip.absorb, show i ≠ 0 by simpa using h]
  | fail => rfl

theorem absorb_latch (ch : Chip) (v : Word) :
    (ch.absorb ⟨0, v, .ok⟩).effective = some (ch.held.set 0 (some v)) := rfl

end Sys2Proof.Laws
end

