-- ==== Sys2Proof/Laws/Decode.lean ====
section
/-! SUPPORT. Fields of command words and configuration words read back what was written, and the other way. -/

namespace Sys2Proof.Laws

open Sys2Proof

/-! ### Command words -/

@[simp] theorem opcodeOf_commandWord (opc : BitVec 8) (arg : Nat) : opcodeOf (commandWord opc arg) = opc := by
  apply BitVec.eq_of_getLsbD_eq
  intro j hj
  simp only [opcodeOf, commandWord, BitVec.getLsbD_extractLsb', BitVec.getLsbD_cast, BitVec.getLsbD_append]
  simp [hj]

@[simp] theorem argOf_commandWord (opc : BitVec 8) {arg : Nat} (h : arg < 2 ^ argW) :
    argOf (commandWord opc arg) = arg := by
  have e : slice (commandWord opc arg) 0 64 = BitVec.ofNat 64 arg := by
    apply BitVec.eq_of_getLsbD_eq
    intro j hj
    simp only [commandWord, BitVec.getLsbD_extractLsb', BitVec.getLsbD_cast, BitVec.getLsbD_append]
    simp [hj]
  rw [argOf, e, BitVec.toNat_ofNat, Nat.mod_eq_of_lt h]

theorem argOf_lt (cw : CommandWord) : argOf cw < 2 ^ argW := (slice cw 0 64).isLt

theorem commandWord_of (cw : CommandWord) : commandWord (opcodeOf cw) (argOf cw) = cw := by
  apply BitVec.eq_of_getLsbD_eq
  intro j hj
  simp only [commandWord, BitVec.getLsbD_cast, BitVec.getLsbD_append, argOf, BitVec.ofNat_toNat,
    BitVec.setWidth_eq, opcodeOf, BitVec.getLsbD_extractLsb']
  rcases Nat.lt_or_ge j 64 with h | h
  · simp [h]
  · simp [Nat.not_lt.2 h, show j - 64 < 8 by omega, show 64 + (j - 64) = j by omega]

/-! ### Configuration words -/

theorem toNat_append_add {m n : Nat} (x : BitVec m) (y : BitVec n) :
    (x ++ y).toNat = x.toNat * 2 ^ n + y.toNat := by
  rw [BitVec.toNat_append, ← Nat.shiftLeft_add_eq_or_of_lt y.isLt, Nat.shiftLeft_eq]

theorem toNat_slice {n : Nat} (w : BitVec n) (lo width : Nat) :
    (slice w lo width).toNat = w.toNat / 2 ^ lo % 2 ^ width := by
  simp [BitVec.extractLsb'_toNat, Nat.shiftRight_eq_div_pow]

theorem slice_cast {m n : Nat} (h : m = n) (x : BitVec m) (lo k : Nat) :
    slice (x.cast h) lo k = slice x lo k := by subst h; rfl

theorem slice_append_high {m n : Nat} (x : BitVec m) (y : BitVec n) {lo k : Nat} (h : n ≤ lo) :
    slice (x ++ y) lo k = slice x (lo - n) k := by
  apply BitVec.eq_of_getLsbD_eq
  intro j hj
  simp only [BitVec.getLsbD_extractLsb', BitVec.getLsbD_append, show ¬ lo + j < n by omega, if_false,
    show lo + j - n = lo - n + j by omega]

theorem slice_append_low {m n : Nat} (x : BitVec m) (y : BitVec n) {lo k : Nat} (h : lo + k ≤ n) :
    slice (x ++ y) lo k = slice y lo k := by
  apply BitVec.eq_of_getLsbD_eq
  intro j hj
  simp [BitVec.getLsbD_append, show lo + j < n by omega]

theorem slice_self {n lo : Nat} (x : BitVec n) (h : lo = 0) : slice x lo n = x := by
  apply BitVec.eq_of_getLsbD_eq
  intro j hj
  simp [hj, h]

theorem slice_append_slice {n : Nat} (w : BitVec n) {lo lo' m k : Nat} (h : lo' = lo + m) :
    slice w lo' k ++ slice w lo m = slice w lo (k + m) := by
  apply BitVec.eq_of_getLsbD_eq
  intro j hj
  simp only [BitVec.getLsbD_extractLsb', BitVec.getLsbD_append, h]
  rcases Nat.lt_or_ge j m with hm | hm
  · simp [hm, show j < k + m by omega]
  · simp [Nat.not_lt.2 hm, show lo + m + (j - m) = lo + j by omega, hj, show j - m < k by omega]

theorem slice_whole {n k : Nat} (w : BitVec n) (h : k = n) : (slice w 0 k).cast h = w := by
  subst h
  exact slice_self w rfl

theorem slice_lt {n : Nat} (w : BitVec n) (lo width : Nat) : (slice w lo width).toNat < 2 ^ width :=
  (slice w lo width).isLt

/-- The number a word 0 is (R92). -/
theorem Cfg0.toNat_word (c : Cfg0) :
    c.word.toNat =
      c.rsv31.toNat * 2 ^ 31 + c.int.toNat * 2 ^ 15 + c.frac.toNat * 2 ^ 3 := by
  simp only [Cfg0.word, BitVec.toNat_cast, toNat_append_add, BitVec.toNat_ofNat]
  omega

theorem cfg0Of_word (c : Cfg0) : cfg0Of c.word = c := by
  simp (disch := omega) only [cfg0Of, Cfg0.word, slice_cast, slice_append_high, slice_append_low, slice_self]

theorem slice_cfg0_word (c : Cfg0) : slice c.word 0 3 = 0#3 := by
  simp (disch := omega) only [Cfg0.word, slice_cast, slice_append_low, slice_self]

theorem cfg0_word_of (w : Word) (h : slice w 0 3 = 0#3) : (cfg0Of w).word = w := by
  rw [Cfg0.word, ← h]
  simp (disch := omega) only [cfg0Of, slice_append_slice]
  exact slice_whole w rfl

/-- The number a word 1 is (R93). -/
theorem Cfg1.toNat_word (c : Cfg1) :
    c.word.toNat =
      c.rsv31_29.toNat * 2 ^ 29 + c.phadj.toNat * 2 ^ 28 + c.presc.toNat * 2 ^ 27 + c.phase.toNat * 2 ^ 15 + c.mod.toNat * 2 ^ 3 + 1 := by
  simp only [Cfg1.word, BitVec.toNat_cast, toNat_append_add, BitVec.toNat_ofNat]
  omega

theorem cfg1Of_word (c : Cfg1) : cfg1Of c.word = c := by
  simp (disch := omega) only [cfg1Of, Cfg1.word, slice_cast, slice_append_high, slice_append_low, slice_self]

theorem slice_cfg1_word (c : Cfg1) : slice c.word 0 3 = 1#3 := by
  simp (disch := omega) only [Cfg1.word, slice_cast, slice_append_low, slice_self]

theorem cfg1_word_of (w : Word) (h : slice w 0 3 = 1#3) : (cfg1Of w).word = w := by
  rw [Cfg1.word, ← h]
  simp (disch := omega) only [cfg1Of, slice_append_slice]
  exact slice_whole w rfl

/-- The number a word 2 is (R94). -/
theorem Cfg2.toNat_word (c : Cfg2) :
    c.word.toNat =
      c.rsv31.toNat * 2 ^ 31 + c.noise.toNat * 2 ^ 29 + c.muxout.toNat * 2 ^ 26 + c.refdbl.toNat * 2 ^ 25 + c.rdiv2.toNat * 2 ^ 24 + c.rcnt.toNat * 2 ^ 14 + c.fix2.toNat * 2 ^ 6 + c.pdown.toNat * 2 ^ 5 + c.cp3st.toNat * 2 ^ 4 + c.cntrst.toNat * 2 ^ 3 + 2 := by
  simp only [Cfg2.word, BitVec.toNat_cast, toNat_append_add, BitVec.toNat_ofNat]
  omega

theorem cfg2Of_word (c : Cfg2) : cfg2Of c.word = c := by
  simp (disch := omega) only [cfg2Of, Cfg2.word, slice_cast, slice_append_high, slice_append_low, slice_self]

theorem slice_cfg2_word (c : Cfg2) : slice c.word 0 3 = 2#3 := by
  simp (disch := omega) only [Cfg2.word, slice_cast, slice_append_low, slice_self]

theorem cfg2_word_of (w : Word) (h : slice w 0 3 = 2#3) : (cfg2Of w).word = w := by
  rw [Cfg2.word, ← h]
  simp (disch := omega) only [cfg2Of, slice_append_slice]
  exact slice_whole w rfl

/-- The number a word 3 is (R95). -/
theorem Cfg3.toNat_word (c : Cfg3) :
    c.word.toNat =
      c.rsv31_24.toNat * 2 ^ 24 + c.bscm.toNat * 2 ^ 23 + c.abp.toNat * 2 ^ 22 + c.chgcan.toNat * 2 ^ 21 + c.rsv20_19.toNat * 2 ^ 19 + c.csr.toNat * 2 ^ 18 + c.rsv17.toNat * 2 ^ 17 + c.clkdivmode.toNat * 2 ^ 15 + c.clkdiv.toNat * 2 ^ 3 + 3 := by
  simp only [Cfg3.word, BitVec.toNat_cast, toNat_append_add, BitVec.toNat_ofNat]
  omega

theorem cfg3Of_word (c : Cfg3) : cfg3Of c.word = c := by
  simp (disch := omega) only [cfg3Of, Cfg3.word, slice_cast, slice_append_high, slice_append_low, slice_self]

theorem slice_cfg3_word (c : Cfg3) : slice c.word 0 3 = 3#3 := by
  simp (disch := omega) only [Cfg3.word, slice_cast, slice_append_low, slice_self]

theorem cfg3_word_of (w : Word) (h : slice w 0 3 = 3#3) : (cfg3Of w).word = w := by
  rw [Cfg3.word, ← h]
  simp (disch := omega) only [cfg3Of, slice_append_slice]
  exact slice_whole w rfl

/-- The number a word 4 is (R96). -/
theorem Cfg4.toNat_word (c : Cfg4) :
    c.word.toNat =
      c.rsv31_24.toNat * 2 ^ 24 + c.fbsel.toNat * 2 ^ 23 + c.divsel.toNat * 2 ^ 20 + c.bandsel.toNat * 2 ^ 12 + c.vcopd.toNat * 2 ^ 11 + c.mtld.toNat * 2 ^ 10 + c.auxsel.toNat * 2 ^ 9 + c.auxen.toNat * 2 ^ 8 + c.auxpwr.toNat * 2 ^ 6 + c.rfen.toNat * 2 ^ 5 + c.rfpwr.toNat * 2 ^ 3 + 4 := by
  simp only [Cfg4.word, BitVec.toNat_cast, toNat_append_add, BitVec.toNat_ofNat]
  omega

theorem cfg4Of_word (c : Cfg4) : cfg4Of c.word = c := by
  simp (disch := omega) only [cfg4Of, Cfg4.word, slice_cast, slice_append_high, slice_append_low, slice_self]

theorem slice_cfg4_word (c : Cfg4) : slice c.word 0 3 = 4#3 := by
  simp (disch := omega) only [Cfg4.word, slice_cast, slice_append_low, slice_self]

theorem cfg4_word_of (w : Word) (h : slice w 0 3 = 4#3) : (cfg4Of w).word = w := by
  rw [Cfg4.word, ← h]
  simp (disch := omega) only [cfg4Of, slice_append_slice]
  exact slice_whole w rfl

/-- The number a word 5 is (R97). -/
theorem Cfg5.toNat_word (c : Cfg5) :
    c.word.toNat =
      c.rsv31_24.toNat * 2 ^ 24 + c.ldpin.toNat * 2 ^ 22 + c.rsv21.toNat * 2 ^ 21 + c.rsv20_19.toNat * 2 ^ 19 + c.rsv18_3.toNat * 2 ^ 3 + 5 := by
  simp only [Cfg5.word, BitVec.toNat_cast, toNat_append_add, BitVec.toNat_ofNat]
  omega

theorem cfg5Of_word (c : Cfg5) : cfg5Of c.word = c := by
  simp (disch := omega) only [cfg5Of, Cfg5.word, slice_cast, slice_append_high, slice_append_low, slice_self]

theorem slice_cfg5_word (c : Cfg5) : slice c.word 0 3 = 5#3 := by
  simp (disch := omega) only [Cfg5.word, slice_cast, slice_append_low, slice_self]

theorem cfg5_word_of (w : Word) (h : slice w 0 3 = 5#3) : (cfg5Of w).word = w := by
  rw [Cfg5.word, ← h]
  simp (disch := omega) only [cfg5Of, slice_append_slice]
  exact slice_whole w rfl

end Sys2Proof.Laws
end

