-- ==== Sys2Proof/Laws/Encoder.lean ====
section
/-! SUPPORT. The field insert and the encoder, bit by bit (00_scope.md section 8, 42_encoder.md). -/

namespace Sys2Proof.Laws

open Sys2Proof Sys2Proof.Machine

/-! ### One field -/

theorem shiftLeft_sub_one (k : Nat) : (1#32 <<< k) - 1#32 = BitVec.ofNat 32 (2 ^ k - 1) := by
  apply BitVec.eq_of_toNat_eq
  have h1 : 1 ≤ 2 ^ k := Nat.one_le_two_pow
  rcases Nat.lt_or_ge k 32 with hk | hk
  · have h2 : 2 ^ k < 2 ^ 32 := Nat.pow_lt_pow_right (by omega) hk
    simp [BitVec.toNat_sub, Nat.shiftLeft_eq]
    omega
  · obtain ⟨d, rfl⟩ := Nat.exists_eq_add_of_le hk
    have h2 : 1 ≤ 2 ^ d := Nat.one_le_two_pow
    simp [Nat.pow_add]
    omega

theorem getLsbD_mask (hi lo j : Nat) :
    (mask hi lo).getLsbD j = decide (lo ≤ j ∧ j ≤ hi ∧ j < 32) := by
  simp only [mask, shiftLeft_sub_one, BitVec.getLsbD_shiftLeft, BitVec.getLsbD_ofNat,
    Nat.testBit_two_pow_sub_one]
  grind

theorem getLsbD_insertBits (w : Word) (hi lo v j : Nat) :
    (insertBits w hi lo v).getLsbD j =
      if lo ≤ j ∧ j ≤ hi ∧ j < 32 then v.testBit (j - lo) else w.getLsbD j := by
  simp only [insertBits, BitVec.getLsbD_or, BitVec.getLsbD_and, BitVec.getLsbD_not, getLsbD_mask,
    BitVec.getLsbD_shiftLeft, BitVec.getLsbD_ofNat]
  rcases Nat.lt_or_ge j 32 with hj | hj
  · by_cases h1 : lo ≤ j <;> by_cases h2 : j ≤ hi <;>
      simp [h1, h2, hj, show j - lo < 32 by omega]
  · simp [Nat.not_lt.2 hj, BitVec.getLsbD_of_ge w j hj]

/-- The bits of a layout's field. -/
abbrev covers (f : BitField) (i : WordIndex) (j : Nat) : Prop :=
  f.word = i ∧ f.lo ≤ j ∧ j ≤ f.hi ∧ j < 32

theorem getLsbD_insertField (f : BitField) (v : Nat) (ws : Vector Word 6) (i : WordIndex) (j : Nat) :
    ((insertField f v ws)[i]).getLsbD j =
      if f.word = i ∧ f.lo ≤ j ∧ j ≤ f.hi ∧ j < 32 then v.testBit (j - f.lo) else (ws[i]).getLsbD j := by
  by_cases h : f.word = i
  · subst h
    simp [insertField, getLsbD_insertBits]
  · have h' : (f.word : Nat) ≠ i := fun e => h (Fin.ext e)
    simp [insertField, h, Vector.getElem_set_ne _ _ h']

/-! ### A list of fields -/

/-- The fields and values an encode inserts, the first one first. -/
def inserts (c : Config) (pl : Plan) (bs : Nat) (en : Bool) (pw : Nat) : List (BitField × Nat) :=
  [(c.layout.int, pl.int), (c.layout.presc, prescCode pl.p), (c.layout.rcnt, pl.r),
   (c.layout.fix2, c.fix2Value), (c.layout.divsel, pl.n), (c.layout.bandsel, bs),
   (c.layout.rfen, enableCode en), (c.layout.rfpwr, pw)]

/-- Insert every field of a list. -/
def insertAll (ps : List (BitField × Nat)) (ws : Vector Word 6) : Vector Word 6 :=
  ps.foldl (fun ws p => insertField p.1 p.2 ws) ws

theorem insertAll_cons (p : BitField × Nat) (ps : List (BitField × Nat)) (ws : Vector Word 6) :
    insertAll (p :: ps) ws = insertAll ps (insertField p.1 p.2 ws) := rfl

theorem encodeWords_eq (c : Config) (pl : Plan) (bs : Nat) (en : Bool) (pw : Nat)
    (old : Vector Word 6) : encodeWords c pl bs en pw old = insertAll (inserts c pl bs en pw) old := rfl

theorem inserts_fields (c : Config) (pl : Plan) (bs : Nat) (en : Bool) (pw : Nat) :
    (inserts c pl bs en pw).map Prod.fst = c.layout.fields := rfl

theorem insertAll_static {ps : List (BitField × Nat)} {i : WordIndex} {j : Nat}
    (h : ∀ f ∈ ps.map Prod.fst, ¬ covers f i j) (ws : Vector Word 6) :
    ((insertAll ps ws)[i]).getLsbD j = (ws[i]).getLsbD j := by
  induction ps generalizing ws with
  | nil => rfl
  | cons p ps ih =>
    simp only [List.map_cons, List.mem_cons, forall_eq_or_imp] at h
    rw [insertAll_cons, ih h.2, getLsbD_insertField, if_neg h.1]

/-- A covered bit does not depend on the words it is inserted into. -/
theorem insertAll_dynamic {ps : List (BitField × Nat)} {i : WordIndex} {j : Nat}
    (h : ∃ f ∈ ps.map Prod.fst, covers f i j) (ws ws' : Vector Word 6) :
    ((insertAll ps ws)[i]).getLsbD j = ((insertAll ps ws')[i]).getLsbD j := by
  induction ps generalizing ws ws' with
  | nil => simp at h
  | cons p ps ih =>
    simp only [insertAll_cons]
    by_cases hps : ∃ f ∈ ps.map Prod.fst, covers f i j
    · exact ih hps _ _
    · have hp : covers p.1 i j := by
        obtain ⟨f, hf, hc⟩ := h
        rcases List.mem_cons.1 hf with rfl | hf
        · exact hc
        · exact absurd ⟨f, hf, hc⟩ hps
      have hs : ∀ f ∈ ps.map Prod.fst, ¬ covers f i j := fun f hf hc => hps ⟨f, hf, hc⟩
      have hp' : p.1.word = i ∧ p.1.lo ≤ j ∧ j ≤ p.1.hi ∧ j < 32 := hp
      rw [insertAll_static hs, insertAll_static hs, getLsbD_insertField, getLsbD_insertField, if_pos hp',
        if_pos hp']

/-- With disjoint fields every field reads back what was inserted. -/
theorem insertAll_read {ps : List (BitField × Nat)} (hd : (ps.map Prod.fst).Pairwise BitField.disjoint)
    {p : BitField × Nat} (hp : p ∈ ps) {i : WordIndex} {j : Nat} (hc : covers p.1 i j)
    (ws : Vector Word 6) : ((insertAll ps ws)[i]).getLsbD j = p.2.testBit (j - p.1.lo) := by
  induction ps generalizing ws with
  | nil => simp at hp
  | cons q ps ih =>
    simp only [List.map_cons, List.pairwise_cons] at hd
    simp only [insertAll_cons]
    rcases List.mem_cons.1 hp with rfl | hp
    · have hs : ∀ f ∈ ps.map Prod.fst, ¬ covers f i j := by
        intro f hf hcf
        rcases hd.1 f hf with hw | hlt | hlt
        · exact hw (hc.1.trans hcf.1.symm)
        · omega
        · omega
      have hc' : p.1.word = i ∧ p.1.lo ≤ j ∧ j ≤ p.1.hi ∧ j < 32 := hc
      rw [insertAll_static hs, getLsbD_insertField, if_pos hc']
    · exact ih hd.2 hp _

/-! ### The dynamic masks -/

theorem getLsbD_dynamicMask (l : Layout) (i : WordIndex) (j : Nat) :
    (dynamicMask l i).getLsbD j = true ↔ ∃ f ∈ l.fields, covers f i j := by
  have key : ∀ (fs : List BitField) (m : Word),
      (fs.foldl (fun m f => if f.word = i then m ||| mask f.hi f.lo else m) m).getLsbD j = true ↔
        m.getLsbD j = true ∨ ∃ f ∈ fs, covers f i j := by
    intro fs
    induction fs with
    | nil => simp
    | cons f fs ih =>
      intro m
      rw [List.foldl_cons, ih]
      by_cases hf : f.word = i
      · simp [hf, getLsbD_mask, covers, or_assoc]
      · simp [hf, covers]
  rw [dynamicMask, key]
  simp

/-! ### The encoder -/

/-- The merge property (R170): static bits pass through. -/
theorem encodeWords_static (c : Config) (pl : Plan) (bs : Nat) (en : Bool) (pw : Nat)
    (old : Vector Word 6) (i : WordIndex) :
    (encodeWords c pl bs en pw old)[i] &&& ~~~(dynamicMask c.layout i) =
      old[i] &&& ~~~(dynamicMask c.layout i) := by
  apply BitVec.eq_of_getLsbD_eq
  intro j hj
  simp only [BitVec.getLsbD_and, BitVec.getLsbD_not, hj, decide_true, Bool.true_and]
  cases hm : (dynamicMask c.layout i).getLsbD j
  · have hs : ∀ f ∈ (inserts c pl bs en pw).map Prod.fst, ¬ covers f i j := fun f hf hcv => by
      simp [(getLsbD_dynamicMask c.layout i j).2 ⟨f, hf, hcv⟩] at hm
    rw [encodeWords_eq, insertAll_static hs]
  · simp

/-- The result does not depend on the old dynamic bits (R171). -/
theorem encodeWords_congr (c : Config) (pl : Plan) (bs : Nat) (en : Bool) (pw : Nat)
    {old old' : Vector Word 6}
    (h : ∀ i : WordIndex, old[i] &&& ~~~(dynamicMask c.layout i) = old'[i] &&& ~~~(dynamicMask c.layout i)) :
    encodeWords c pl bs en pw old = encodeWords c pl bs en pw old' := by
  apply Vector.ext
  intro k hk
  apply BitVec.eq_of_getLsbD_eq
  intro j hj
  have hi := congrArg (fun w => BitVec.getLsbD w j) (h ⟨k, hk⟩)
  simp only [BitVec.getLsbD_and, BitVec.getLsbD_not, hj, decide_true, Bool.true_and] at hi
  show ((insertAll (inserts c pl bs en pw) old)[(⟨k, hk⟩ : WordIndex)]).getLsbD j =
    ((insertAll (inserts c pl bs en pw) old')[(⟨k, hk⟩ : WordIndex)]).getLsbD j
  cases hm : (dynamicMask c.layout ⟨k, hk⟩).getLsbD j
  · have hs : ∀ f ∈ (inserts c pl bs en pw).map Prod.fst, ¬ covers f ⟨k, hk⟩ j := fun f hf hcv => by
      simp [(getLsbD_dynamicMask c.layout _ j).2 ⟨f, hf, hcv⟩] at hm
    rw [insertAll_static hs, insertAll_static hs]
    simpa [hm] using hi
  · exact insertAll_dynamic (ps := inserts c pl bs en pw) (i := ⟨k, hk⟩) (j := j)
      ((getLsbD_dynamicMask c.layout _ j).1 hm) _ _

theorem encodeWords_encodeWords (c : Config) (x y : Plan) (bs bs' : Nat) (en en' : Bool)
    (pw pw' : Nat) (old : Vector Word 6) :
    encodeWords c x bs en pw (encodeWords c y bs' en' pw' old) = encodeWords c x bs en pw old :=
  encodeWords_congr c x bs en pw fun i => encodeWords_static c y bs' en' pw' old i

/-- Every dynamic field of a well-formed layout holds its value (R98, R168). -/
theorem encodeWords_field {c : Config} {pwrW : Nat} (hl : c.layout.Wf pwrW) (pl : Plan) (bs : Nat) (en : Bool)
    (pw : Nat) (old : Vector Word 6) {f : BitField} {v : Nat}
    (hf : (f, v) ∈ inserts c pl bs en pw) (hv : v < 2 ^ f.width) :
    ((encodeWords c pl bs en pw old)[f.word]).toNat / 2 ^ f.lo % 2 ^ f.width = v := by
  have hin := hl.inWord f (inserts_fields c pl bs en pw ▸ List.mem_map_of_mem hf)
  apply Nat.eq_of_testBit_eq
  intro j
  rw [Nat.testBit_mod_two_pow, Nat.testBit_div_two_pow]
  rcases Nat.lt_or_ge j f.width with hj | hj
  · have hc : covers f f.word (j + f.lo) := by
      refine ⟨rfl, ?_⟩
      simp only [BitField.width] at hj; omega
    have hr := insertAll_read (ps := inserts c pl bs en pw) hl.disjoint hf hc old
    rw [← encodeWords_eq, BitVec.getLsbD, Nat.add_sub_cancel] at hr
    rw [hr]
    simp [hj]
  · simp [Nat.not_lt.2 hj, Nat.testBit_lt_two_pow (lt_of_lt_of_le hv (Nat.pow_le_pow_right (by omega) hj))]

/-- The index bits lie below every field of a well-formed layout (R172). -/
theorem encodeWords_index {c : Config} {pwrW : Nat} (hl : c.layout.Wf pwrW) (pl : Plan) (bs : Nat) (en : Bool)
    (pw : Nat) (old : Vector Word 6) (i : WordIndex) :
    ((encodeWords c pl bs en pw old)[i]).extractLsb' 0 3 = (old[i]).extractLsb' 0 3 := by
  apply BitVec.eq_of_getLsbD_eq
  intro j hj
  have hs : ∀ f ∈ (inserts c pl bs en pw).map Prod.fst, ¬ covers f i j := fun f hf hcv => by
    have := hl.inWord f hf
    simp only [covers] at hcv; omega
  simp only [BitVec.getLsbD_extractLsb', hj, decide_true, Bool.true_and, Nat.zero_add]
  rw [encodeWords_eq, insertAll_static hs]

end Sys2Proof.Laws
end

