-- ==== Sys2Proof/Laws/Planner.lean ====
section
/-! SUPPORT. What the planner's operations answer, one lemma for each (40_planner.md, 41_bandselect.md). -/

namespace Sys2Proof.Laws

open Sys2Proof Sys2Proof.Machine

/-! ### The checks -/

theorem rangeCheck_ok_iff (f : Nat) (u : Unit) :
    rangeCheck f = .ok u ↔ Const.fMin ≤ f ∧ f ≤ Const.fMax := by
  simp only [rangeCheck]; split
  · simp; omega
  · split <;> simp <;> omega

theorem rangeCheck_ok {f : Nat} (h : Const.fMin ≤ f ∧ f ≤ Const.fMax) : rangeCheck f = .ok () :=
  (rangeCheck_ok_iff f ()).2 h

theorem rangeCheck_error_iff (f : Nat) (e : Cause) :
    rangeCheck f = .error e ↔
      (f < Const.fMin ∧ e = .fBelowMin) ∨ (Const.fMin ≤ f ∧ Const.fMax < f ∧ e = .fAboveMax) := by
  simp only [rangeCheck]
  by_cases h1 : f < Const.fMin
  · simp [h1, eq_comm, show ¬ Const.fMin ≤ f by omega]
  · by_cases h2 : f > Const.fMax
    · simp [h1, h2, eq_comm, show Const.fMin ≤ f by omega]
    · simp [h1, h2]

theorem inVcoRange_iff (f n : Nat) :
    inVcoRange f n = true ↔ Const.vcoMin ≤ f * 2 ^ n ∧ f * 2 ^ n ≤ Const.vcoMax := by
  simp [inVcoRange]

/-- `divExp` answers the least exponent up to 6 that puts the VCO in range (R121). -/
theorem divExp_ok_iff (f n : Nat) :
    divExp f = .ok n ↔ n ≤ Const.divExpMax ∧ inVcoRange f n = true ∧ ∀ m < n, inVcoRange f m = false := by
  have key : ∀ k, (List.range k).find? (inVcoRange f) = some n ↔
      n < k ∧ inVcoRange f n = true ∧ ∀ m < n, inVcoRange f m = false := by
    intro k
    rw [List.find?_range_eq_some]
    simp only [List.mem_range, Bool.not_eq_true']
    tauto
  have := key (Const.divExpMax + 1)
  rw [Nat.lt_succ_iff] at this
  rw [← this, divExp]
  split <;> rename_i h <;> simp [h]

/-- After the range check the divider search always answers (R122). -/
theorem divExp_of_range {f : Nat} (h : Const.fMin ≤ f ∧ f ≤ Const.fMax) : ∃ n, divExp f = .ok n := by
  have some_n : ∃ n, n ≤ Const.divExpMax ∧ inVcoRange f n = true := by
    simp only [inVcoRange_iff, Const.fMin, Const.fMax, Const.vcoMin, Const.vcoMax, Const.divExpMax] at *
    rcases Nat.lt_or_ge f 68750000 with h6 | h6
    · exact ⟨6, by omega⟩
    rcases Nat.lt_or_ge f 137500000 with h5 | h5
    · exact ⟨5, by omega⟩
    rcases Nat.lt_or_ge f 275000000 with h4 | h4
    · exact ⟨4, by omega⟩
    rcases Nat.lt_or_ge f 550000000 with h3 | h3
    · exact ⟨3, by omega⟩
    rcases Nat.lt_or_ge f 1100000000 with h2 | h2
    · exact ⟨2, by omega⟩
    rcases Nat.lt_or_ge f 2200000000 with h1 | h1
    · exact ⟨1, by omega⟩
    · exact ⟨0, by omega⟩
  refine ⟨Nat.find some_n, (divExp_ok_iff f _).2 ⟨(Nat.find_spec some_n).1, (Nat.find_spec some_n).2, ?_⟩⟩
  intro m hm
  by_contra hc
  have := (Nat.find_spec some_n).1
  exact Nat.find_min some_n hm ⟨by omega, by simpa using hc⟩

theorem divExp_error {f : Nat} {e : Cause} (h : divExp f = .error e) : e = .noDivider := by
  simp only [divExp] at h
  split at h <;> simp_all

theorem ratioCheck_error_iff (step ref : Nat) (e : Cause) :
    ratioCheck step ref = .error e ↔
      (step = 0 ∧ e = .stepZero) ∨ (step ≠ 0 ∧ ref % step ≠ 0 ∧ e = .ratioNotInteger) ∨
        (step ≠ 0 ∧ ref % step = 0 ∧ Const.rMax < ref / step ∧ e = .ratioTooLarge) := by
  simp only [ratioCheck, floorDiv]
  by_cases h0 : step = 0
  · simp [h0, eq_comm]
  by_cases h1 : ref % step = 0
  · by_cases h2 : ref / step ≤ Const.rMax
    · simp [h0, h1, show ¬ (ref / step ≥ Const.rMax + 1) by omega, show ¬ Const.rMax < ref / step by omega]
    · simp [h0, h1, show ref / step ≥ Const.rMax + 1 by omega, show Const.rMax < ref / step by omega, eq_comm]
  · simp [h0, h1, eq_comm]

theorem gridCheck_error_iff (f step lo : Nat) (e : Cause) :
    gridCheck f step lo = .error e ↔
      (f % step ≠ 0 ∧ e = .notOnGrid) ∨ (f % step = 0 ∧ f / step < lo ∧ e = .intBelowNmin) ∨
        (f % step = 0 ∧ lo ≤ f / step ∧ Const.intMax < f / step ∧ e = .intAboveMax) := by
  simp only [gridCheck, floorDiv]
  by_cases h0 : f % step = 0
  · by_cases h1 : f / step < lo
    · simp [h0, h1, show ¬ lo ≤ f / step by omega, eq_comm]
    · by_cases h2 : f / step ≤ Const.intMax
      · simp [h0, h1, show ¬ f / step > Const.intMax by omega]
      · simp [h0, h1, show f / step > Const.intMax by omega, show lo ≤ f / step by omega, eq_comm]
  · simp [h0, eq_comm]

theorem ratioCheck_ok_iff (step ref r : Nat) :
    ratioCheck step ref = .ok r ↔
      step ≠ 0 ∧ ref % step = 0 ∧ ref / step ≤ Const.rMax ∧ r = ref / step := by
  simp only [ratioCheck, floorDiv]
  by_cases h0 : step = 0
  · simp [h0]
  by_cases h1 : ref % step = 0
  · by_cases h2 : ref / step ≤ Const.rMax
    · simp [h0, h1, h2, show ¬ (ref / step ≥ Const.rMax + 1) by omega, eq_comm]
    · simp [h0, h1, h2, show ref / step ≥ Const.rMax + 1 by omega]
  · simp [h0, h1]

theorem gridCheck_ok_iff (f step lo N : Nat) :
    gridCheck f step lo = .ok N ↔ f % step = 0 ∧ lo ≤ f / step ∧ f / step ≤ Const.intMax ∧ N = f / step := by
  simp only [gridCheck, floorDiv]
  by_cases h0 : f % step = 0
  · by_cases h1 : f / step < lo
    · simp [h0, h1, show ¬ lo ≤ f / step by omega]
    · by_cases h2 : f / step ≤ Const.intMax
      · simp [h0, h1, h2, show lo ≤ f / step by omega, show ¬ f / step > Const.intMax by omega, eq_comm]
      · simp [h0, h1, h2, show f / step > Const.intMax by omega]
  · simp [h0]

/-! ### The grid plan -/

theorem computeGridPlan_ok_iff (c : Config) (f step ref : Nat) (pl : Plan) :
    computeGridPlan c f step ref = .ok pl ↔
      (Const.fMin ≤ f ∧ f ≤ Const.fMax) ∧ divExp f = .ok pl.n ∧ pl.p = presc c f ∧
        ratioCheck step ref = .ok pl.r ∧ gridCheck f step (nmin (presc c f)) = .ok pl.int := by
  rw [← rangeCheck_ok_iff f ()]
  simp only [computeGridPlan, bind, Except.bind, pure, Except.pure]
  obtain ⟨n, p, N, r⟩ := pl
  cases rangeCheck f <;> simp
  cases divExp f <;> simp
  cases ratioCheck step ref <;> simp
  cases gridCheck f step (nmin (presc c f)) <;> simp
  grind

/-- The first failing check decides the error (R126, R217). -/
theorem computeGridPlan_error_iff (c : Config) (f step ref : Nat) (e : Cause) :
    computeGridPlan c f step ref = .error e ↔
      rangeCheck f = .error e ∨
        (Const.fMin ≤ f ∧ f ≤ Const.fMax) ∧ (ratioCheck step ref = .error e ∨
          ∃ r, ratioCheck step ref = .ok r ∧ gridCheck f step (nmin (presc c f)) = .error e) := by
  rw [← rangeCheck_ok_iff f ()]
  simp only [computeGridPlan, bind, Except.bind, pure, Except.pure]
  cases hr : rangeCheck f with
  | error e' => simp
  | ok u =>
    obtain ⟨n, hn⟩ := divExp_of_range ((rangeCheck_ok_iff f u).1 hr)
    simp only [hn]
    cases ratioCheck step ref <;> simp
    cases gridCheck f step (nmin (presc c f)) <;> simp

/-- A grid plan is exact (R127). -/
theorem gridPlan_exact {c : Config} {f step ref : Nat} {pl : Plan}
    (h : computeGridPlan c f step ref = .ok pl) : pl.int * ref = f * pl.r := by
  obtain ⟨-, -, -, hr, hN⟩ := (computeGridPlan_ok_iff ..).1 h
  obtain ⟨-, h1, -, hr⟩ := (ratioCheck_ok_iff ..).1 hr
  obtain ⟨h2, -, -, hN⟩ := (gridCheck_ok_iff ..).1 hN
  have e1 := Nat.div_add_mod ref step
  have e2 := Nat.div_add_mod f step
  rw [hr, hN]
  rw [h1, Nat.add_zero] at e1
  rw [h2, Nat.add_zero] at e2
  calc f / step * ref = f / step * (step * (ref / step)) := by rw [e1]
    _ = step * (f / step) * (ref / step) := by ring
    _ = f * (ref / step) := by rw [e2]

/-! ### The optimal plan -/

/-- The candidate `N` is in the search range and admissible (R130, R131). -/
def Admissible (c : Config) (f ref lo N : Nat) : Prop :=
  lo ≤ N ∧ N ≤ candidateMax f ref ∧ 1 ≤ candidateR c f ref N

/-- `N` is the least admissible candidate among those of least deviation (R132). -/
def IsBest (c : Config) (f ref lo N : Nat) : Prop :=
  Admissible c f ref lo N ∧ ∀ M, Admissible c f ref lo M →
    candidateDev c f ref N ≤ candidateDev c f ref M ∧ (M < N → candidateDev c f ref N < candidateDev c f ref M)

theorem mem_candidates (f ref lo N : Nat) : N ∈ candidates f ref lo ↔ lo ≤ N ∧ N ≤ candidateMax f ref := by
  simp only [candidates, List.mem_range'_1]; omega

/-- What the selection loop holds after the candidates `lo, ..., lo + k - 1`. -/
theorem foldl_selectStep (c : Config) (f ref lo k : Nat) :
    match (List.range' lo k).foldl (selectStep c f ref) none with
    | none => ∀ M, lo ≤ M → M < lo + k → candidateR c f ref M < 1
    | some N => (lo ≤ N ∧ N < lo + k ∧ 1 ≤ candidateR c f ref N) ∧
        ∀ M, lo ≤ M → M < lo + k → 1 ≤ candidateR c f ref M →
          candidateDev c f ref N ≤ candidateDev c f ref M ∧
          (M < N → candidateDev c f ref N < candidateDev c f ref M) := by
  induction k with
  | zero => intro M _ _; omega
  | succ k ih =>
    rw [List.range'_1_concat, List.foldl_append]
    generalize (List.range' lo k).foldl (selectStep c f ref) none = b at ih
    simp only [List.foldl_cons, List.foldl_nil, selectStep]
    have split_last : ∀ M, M < lo + (k + 1) → M < lo + k ∨ M = lo + k := by omega
    cases b with
    | none =>
      simp only at ih ⊢
      by_cases hr : 1 ≤ candidateR c f ref (lo + k)
      · simp only [ge_iff_le, hr, if_true]
        refine ⟨⟨by omega, by omega, trivial⟩, fun M h1 h2 h3 => ?_⟩
        rcases split_last M h2 with h | rfl
        · have := ih M h1 h; omega
        · exact ⟨le_rfl, fun h => absurd h (lt_irrefl _)⟩
      · simp only [ge_iff_le, hr, if_false]
        intro M h1 h2
        rcases split_last M h2 with h | rfl
        · exact ih M h1 h
        · omega
    | some b =>
      obtain ⟨⟨b1, b2, b3⟩, ihb⟩ := ih
      by_cases hr : 1 ≤ candidateR c f ref (lo + k)
      · simp only [ge_iff_le, hr, if_true]
        by_cases hd : candidateDev c f ref (lo + k) < candidateDev c f ref b
        · simp only [hd, if_true]
          refine ⟨⟨by omega, by omega, hr⟩, fun M h1 h2 h3 => ?_⟩
          rcases split_last M h2 with h | rfl
          · have := (ihb M h1 h h3).1; omega
          · exact ⟨le_rfl, fun h => absurd h (lt_irrefl _)⟩
        · simp only [hd, if_false]
          refine ⟨⟨b1, by omega, b3⟩, fun M h1 h2 h3 => ?_⟩
          rcases split_last M h2 with h | rfl
          · exact ihb M h1 h h3
          · omega
      · simp only [ge_iff_le, hr, if_false]
        refine ⟨⟨b1, by omega, b3⟩, fun M h1 h2 h3 => ?_⟩
        rcases split_last M h2 with h | rfl
        · exact ihb M h1 h h3
        · exact absurd h3 hr

theorem selectBest_some {c : Config} {f ref lo N : Nat} (h : selectBest c f ref lo = some N) :
    IsBest c f ref lo N := by
  have key := foldl_selectStep c f ref lo (candidateMax f ref + 1 - lo)
  rw [selectBest, candidates] at h
  rw [h] at key
  obtain ⟨⟨k1, k2, k3⟩, hk⟩ := key
  exact ⟨⟨k1, by omega, k3⟩, fun M ⟨m1, m2, m3⟩ => hk M m1 (by omega) m3⟩

theorem selectBest_none {c : Config} {f ref lo : Nat} (h : selectBest c f ref lo = none) (M : Nat) :
    ¬ Admissible c f ref lo M := by
  have key := foldl_selectStep c f ref lo (candidateMax f ref + 1 - lo)
  rw [selectBest, candidates] at h
  rw [h] at key
  rintro ⟨m1, m2, m3⟩
  have := key M m1 (by omega)
  omega

theorem isBest_unique {c : Config} {f ref lo N M : Nat} (hN : IsBest c f ref lo N)
    (hM : IsBest c f ref lo M) : N = M := by
  have h1 := hN.2 M hM.1
  have h2 := hM.2 N hN.1
  rcases lt_trichotomy N M with h | h | h
  · have := h2.2 h; omega
  · exact h
  · have := h1.2 h; omega

/-- The selection loop answers exactly the candidate of R132. -/
theorem selectBest_eq_some_iff (c : Config) (f ref lo N : Nat) :
    selectBest c f ref lo = some N ↔ IsBest c f ref lo N := by
  refine ⟨selectBest_some, fun h => ?_⟩
  cases hb : selectBest c f ref lo with
  | none => exact absurd h.1 (selectBest_none hb N)
  | some M => rw [isBest_unique (selectBest_some hb) h]

theorem selectBest_eq_none_iff (c : Config) (f ref lo : Nat) :
    selectBest c f ref lo = none ↔ ∀ M, ¬ Admissible c f ref lo M := by
  refine ⟨fun h M => selectBest_none h M, fun h => ?_⟩
  cases hb : selectBest c f ref lo with
  | none => rfl
  | some N => exact absurd (selectBest_some hb).1 (h N)

/-- The first candidate of deviation 0, if there is one, is the best: the early stop of R132 changes nothing. -/
theorem isBest_of_dev_zero {c : Config} {f ref lo N : Nat} (hN : Admissible c f ref lo N)
    (h0 : candidateDev c f ref N = 0)
    (hlt : ∀ M, lo ≤ M → M < N → 1 ≤ candidateR c f ref M → 0 < candidateDev c f ref M) :
    IsBest c f ref lo N :=
  ⟨hN, fun M hM => ⟨by omega, fun hl => by rw [h0]; exact hlt M hM.1 hl hM.2.2⟩⟩

/-- The result of `compute_optimal_plan` for its selected candidate `N` (R131, R133, R134). -/
def optPlanOf (c : Config) (f ref n N : Nat) : OptPlan :=
  let r := candidateR c f ref N
  { plan := { n := n, p := presc c f, int := N, r := r }
    actQ := N * ref / r, actM := N * ref % r, snap := snapFlag ref f N r }

theorem computeOptimalPlan_ok_iff (c : Config) (f ref : Nat) (o : OptPlan) :
    computeOptimalPlan c f ref = .ok o ↔
      (Const.fMin ≤ f ∧ f ≤ Const.fMax) ∧ ∃ n N, divExp f = .ok n ∧
        IsBest c f ref (nmin (presc c f)) N ∧ o = optPlanOf c f ref n N := by
  rw [← rangeCheck_ok_iff f ()]
  simp only [computeOptimalPlan, bind, Except.bind, pure, Except.pure, throw, throwThe,
    MonadExceptOf.throw, ← selectBest_eq_some_iff]
  cases rangeCheck f <;> simp
  cases divExp f <;> simp
  cases selectBest c f ref (nmin (presc c f)) <;> simp [optPlanOf, floorDiv, eq_comm]

theorem computeOptimalPlan_error_iff (c : Config) (f ref : Nat) (e : Cause) :
    computeOptimalPlan c f ref = .error e ↔
      rangeCheck f = .error e ∨
        (Const.fMin ≤ f ∧ f ≤ Const.fMax) ∧ e = .optNoCandidate ∧
          ∀ N, ¬ Admissible c f ref (nmin (presc c f)) N := by
  rw [← rangeCheck_ok_iff f (), ← selectBest_eq_none_iff]
  simp only [computeOptimalPlan, bind, Except.bind, pure, Except.pure, throw, throwThe, MonadExceptOf.throw]
  cases hr : rangeCheck f with
  | error e' => simp
  | ok u =>
    obtain ⟨n, hn⟩ := divExp_of_range ((rangeCheck_ok_iff f u).1 hr)
    simp only [hn]
    cases selectBest c f ref (nmin (presc c f)) <;> simp [eq_comm]

/-- R135 (a) and (b) for the selected candidate, under either tie rule. -/
theorem isBest_bounds {c : Config} {f ref lo N : Nat} (hf : 0 < f)
    (h : IsBest c f ref lo N) :
    1 ≤ candidateR c f ref N ∧ candidateR c f ref N ≤ Const.rMax ∧ lo ≤ N ∧ N ≤ Const.intMax := by
  obtain ⟨⟨h1, h2, h3⟩, -⟩ := h
  have hq : N ≤ Const.rMax * f / ref := le_trans h2 (Nat.min_le_left _ _)
  have hmul : N * ref ≤ Const.rMax * f := le_trans (Nat.mul_le_mul_right ref hq) (Nat.div_mul_le_self _ _)
  exact ⟨h3, roundDiv_le _ hf hmul, h1, le_trans h2 (Nat.min_le_right _ _)⟩

/-- The actual frequency lies within half a target of the target: it fits RES and OUTFREQ. -/
theorem actual_le {c : Config} {f ref N : Nat} (hf : 0 < f) (hr : 1 ≤ candidateR c f ref N) :
    2 * (N * ref / candidateR c f ref N) ≤ 3 * f := by
  have hb := (roundDiv_bounds c.roundTie (N * ref) hf).2
  rw [show roundDiv c.roundTie (N * ref) f = candidateR c f ref N from rfl] at hb
  generalize candidateR c f ref N = r at *
  have hq := Nat.div_mul_le_self (N * ref) r
  generalize N * ref / r = q at *
  by_contra hlt
  have h1 : (3 * f + 1) * r ≤ 2 * q * r := Nat.mul_le_mul_right r (by omega)
  have h2 : f * 1 ≤ f * r := Nat.mul_le_mul_left f hr
  have e1 : (3 * f + 1) * r = 3 * (f * r) + r := by ring
  have e2 : 2 * q * r = 2 * (q * r) := by ring
  rw [Nat.mul_comm r f] at hb
  omega

/-- A deviation of 0 is an exact plan: SNAP tells the two apart (R133). -/
theorem snapFlag_iff (ref f N r : Nat) : snapFlag ref f N r = true ↔ N * ref ≠ f * r := by
  simp [snapFlag]

theorem snapFlag_false_iff (ref f N r : Nat) : snapFlag ref f N r = false ↔ N * ref = f * r := by
  simp [snapFlag]

/-! ### Band select -/

/-- Everything `bandSelect` can answer (R151, R152, R153). -/
theorem bandSelect_spec {c : Config} {ref r : Nat} (hp : 0 < r * c.maxPfd) (href : 0 < ref) :
    (1 ≤ (bandSelect c ref r).1 ∧ (bandSelect c ref r).1 ≤ Const.bsMax) ∧
      ((bandSelect c ref r).2 = true ↔ Const.bsMax * (r * c.maxPfd) < ref) ∧
      ((bandSelect c ref r).2 = true → (bandSelect c ref r).1 = Const.bsMax) ∧
      ((bandSelect c ref r).2 = false →
        (bandSelect c ref r).1 = ceilDiv ref (r * c.maxPfd) ∧ ref ≤ (bandSelect c ref r).1 * (r * c.maxPfd)) := by
  have hq := ceilDiv_pos href hp
  have hle := le_ceilDiv_mul (a := ref) hp
  have hiff := ceilDiv_le_iff (a := ref) hp Const.bsMax
  simp only [bandSelect, bandQuotient, clampFlag, Const.bsMin, Const.bsMax] at *
  grind

end Sys2Proof.Laws
end

