-- ==== Sys2Proof/Laws/Commands.lean ====
section
/-! SUPPORT. Everything each meaning and each step can do (44_commands.md). -/

namespace Sys2Proof.Laws

open Sys2Proof Sys2Proof.Machine

variable {fw pw : Nat}

/-! ### The commands -/

theorem setFrequency_cases {c : Config} {f : Nat} {s t : State fw pw} (h : setFrequency c f s = .next t) :
    (∃ e, computeGridPlan c f s.stepSize.toNat s.refFreq.toNat = .error e ∧ t = raise e (accept s)) ∨
      ∃ pl, computeGridPlan c f s.stepSize.toNat s.refFreq.toNat = .ok pl ∧
        transmit (commitPlan c pl f false (accept s)) = .next t := by
  simp only [setFrequency, accept_stepSize, accept_refFreq] at h
  cases hp : computeGridPlan c f s.stepSize.toNat s.refFreq.toNat with
  | error e => rw [hp] at h; injection h with h; exact .inl ⟨e, rfl, h.symm⟩
  | ok pl => rw [hp] at h; exact .inr ⟨pl, rfl, h⟩

theorem setFrequencyOptimally_cases {c : Config} {f : Nat} {s t : State fw pw}
    (h : setFrequencyOptimally c f s = .next t) :
    (∃ e, computeOptimalPlan c f s.refFreq.toNat = .error e ∧ t = raise e (accept s)) ∨
      ∃ o, computeOptimalPlan c f s.refFreq.toNat = .ok o ∧
        transmit (setResult o.actQ o.actM (commitPlan c o.plan o.actQ o.snap (accept s))) = .next t := by
  simp only [setFrequencyOptimally, accept_refFreq] at h
  cases hp : computeOptimalPlan c f s.refFreq.toNat with
  | error e => rw [hp] at h; injection h with h; exact .inl ⟨e, rfl, h.symm⟩
  | ok o => rw [hp] at h; exact .inr ⟨o, rfl, h⟩

theorem setStepsize_cases {hz : Nat} {s t : State fw pw} (h : setStepsize hz s = .next t) :
    (∃ e, ratioCheck hz s.refFreq.toNat = .error e ∧ t = raise e (accept s)) ∨
      ∃ r, ratioCheck hz s.refFreq.toNat = .ok r ∧
        t = { accept s with stepSize := BitVec.ofNat fw hz } := by
  simp only [setStepsize, accept_refFreq] at h
  cases hp : ratioCheck hz s.refFreq.toNat with
  | error e => rw [hp] at h; injection h with h; exact .inl ⟨e, rfl, h.symm⟩
  | ok r => rw [hp] at h; injection h with h; exact .inr ⟨r, rfl, h.symm⟩

theorem getOptimalStepsize_cases {c : Config} {f : Nat} {s t : State fw pw}
    (h : getOptimalStepsize c f s = .next t) :
    (∃ e, computeOptimalPlan c f s.refFreq.toNat = .error e ∧ t = raise e (accept s)) ∨
      ∃ o, computeOptimalPlan c f s.refFreq.toNat = .ok o ∧
        t = setResult (s.refFreq.toNat / o.plan.r) (s.refFreq.toNat % o.plan.r) (accept s) := by
  simp only [getOptimalStepsize, accept_refFreq, floorDiv] at h
  cases hp : computeOptimalPlan c f s.refFreq.toNat with
  | error e => rw [hp] at h; injection h with h; exact .inl ⟨e, rfl, h.symm⟩
  | ok o => rw [hp] at h; injection h with h; exact .inr ⟨o, rfl, h.symm⟩

/-! ### Causes that a planner can give -/

theorem ratioCheck_error {step ref : Nat} {e : Cause}
    (h : ratioCheck step ref = .error e) : e ≠ .txFail ∧ e ≠ .badOpcode := by
  rcases (ratioCheck_error_iff ..).1 h with ⟨_, rfl⟩ | ⟨_, _, rfl⟩ | ⟨_, _, _, rfl⟩ <;> simp

theorem rangeCheck_error {f : Nat} {e : Cause} (h : rangeCheck f = .error e) :
    e ≠ .txFail ∧ e ≠ .badOpcode := by
  rcases (rangeCheck_error_iff ..).1 h with ⟨_, rfl⟩ | ⟨_, _, rfl⟩ <;> simp

theorem computeGridPlan_error {c : Config} {f step ref : Nat} {e : Cause}
    (h : computeGridPlan c f step ref = .error e) : e ≠ .txFail ∧ e ≠ .badOpcode := by
  rcases (computeGridPlan_error_iff ..).1 h with h | ⟨_, h | ⟨_, _, h⟩⟩
  · exact rangeCheck_error h
  · exact ratioCheck_error h
  · rcases (gridCheck_error_iff ..).1 h with ⟨_, rfl⟩ | ⟨_, _, rfl⟩ | ⟨_, _, _, rfl⟩ <;> simp

theorem computeOptimalPlan_error {c : Config} {f ref : Nat} {e : Cause}
    (h : computeOptimalPlan c f ref = .error e) : e ≠ .txFail ∧ e ≠ .badOpcode := by
  rcases (computeOptimalPlan_error_iff ..).1 h with h | ⟨_, rfl, _⟩
  · exact rangeCheck_error h
  · simp

/-! ### Every instruction -/

/-- A configuration word that is read changes nothing (R21, R60). -/
@[simp] theorem readWord_eq (s : State fw pw) : readWord s = .next s := rfl

/-- Under the decided parameters the meanings are those of `exec`. -/
theorem execWith_decided (i : Instr) (s : State) : execWith Config.decided i s = exec i s := by
  cases i <;> rfl

/-- Everything an instruction can do when it answers a next state, under any parameters: a command is rejected before
its commit; a stepsize is stored; a query is answered; a plan is committed and transmitted; or a configuration word is
read. -/
theorem execWith_cases {c : Config} {i : Instr} {s t : State fw pw} (h : execWith c i s = .next t) :
    (∃ e, e ≠ .txFail ∧ t = raise e (accept s)) ∨
    (∃ hz r, i = .setstep hz ∧ ratioCheck hz s.refFreq.toNat = .ok r ∧
      t = { accept s with stepSize := BitVec.ofNat fw hz }) ∨
    (∃ f o, i = .getoptstep f ∧ computeOptimalPlan c f s.refFreq.toNat = .ok o ∧
      t = setResult (s.refFreq.toNat / o.plan.r) (s.refFreq.toNat % o.plan.r) (accept s)) ∨
    (∃ f pl, i = .setf f ∧ computeGridPlan c f s.stepSize.toNat s.refFreq.toNat = .ok pl ∧
      transmit (commitPlan c pl f false (accept s)) = .next t) ∨
    (∃ f o, i = .setfopt f ∧ computeOptimalPlan c f s.refFreq.toNat = .ok o ∧
      transmit (setResult o.actQ o.actM (commitPlan c o.plan o.actQ o.snap (accept s))) = .next t) ∨
    ((∃ w, encode i = .config w) ∧ t = s) := by
  have read : ∀ w, encode i = .config w → execWith c i s = readWord s →
      (∃ w, encode i = .config w) ∧ t = s := by
    intro w he hr
    rw [hr, readWord_eq] at h
    injection h with h
    exact ⟨⟨w, he⟩, h.symm⟩
  cases i with
  | setf f =>
    rcases setFrequency_cases h with ⟨e, he, rfl⟩ | ⟨pl, hp, ht⟩
    · exact .inl ⟨e, (computeGridPlan_error he).1, rfl⟩
    · exact .inr (.inr (.inr (.inl ⟨f, pl, rfl, hp, ht⟩)))
  | setfopt f =>
    rcases setFrequencyOptimally_cases h with ⟨e, he, rfl⟩ | ⟨o, hp, ht⟩
    · exact .inl ⟨e, (computeOptimalPlan_error he).1, rfl⟩
    · exact .inr (.inr (.inr (.inr (.inl ⟨f, o, rfl, hp, ht⟩))))
  | setstep hz =>
    rcases setStepsize_cases h with ⟨e, he, rfl⟩ | ⟨r, hr, ht⟩
    · exact .inl ⟨e, (ratioCheck_error he).1, rfl⟩
    · exact .inr (.inl ⟨hz, r, rfl, hr, ht⟩)
  | getoptstep f =>
    rcases getOptimalStepsize_cases h with ⟨e, he, rfl⟩ | ⟨o, ho, ht⟩
    · exact .inl ⟨e, (computeOptimalPlan_error he).1, rfl⟩
    · exact .inr (.inr (.inl ⟨f, o, rfl, ho, ht⟩))
  | cfg0 x => exact .inr (.inr (.inr (.inr (.inr (read _ rfl rfl)))))
  | cfg1 x => exact .inr (.inr (.inr (.inr (.inr (read _ rfl rfl)))))
  | cfg2 x => exact .inr (.inr (.inr (.inr (.inr (read _ rfl rfl)))))
  | cfg3 x => exact .inr (.inr (.inr (.inr (.inr (read _ rfl rfl)))))
  | cfg4 x => exact .inr (.inr (.inr (.inr (.inr (read _ rfl rfl)))))
  | cfg5 x => exact .inr (.inr (.inr (.inr (.inr (read _ rfl rfl)))))

/-- `execWith_cases` for `exec`. -/
theorem exec_cases {i : Instr} {s t : State} (h : exec i s = .next t) :
    (∃ e, e ≠ .txFail ∧ t = raise e (accept s)) ∨
    (∃ hz r, i = .setstep hz ∧ ratioCheck hz s.refFreq.toNat = .ok r ∧
      t = { accept s with stepSize := BitVec.ofNat 64 hz }) ∨
    (∃ f o, i = .getoptstep f ∧ computeOptimalPlan Config.decided f s.refFreq.toNat = .ok o ∧
      t = setResult (s.refFreq.toNat / o.plan.r) (s.refFreq.toNat % o.plan.r) (accept s)) ∨
    (∃ f pl, i = .setf f ∧ computeGridPlan Config.decided f s.stepSize.toNat s.refFreq.toNat = .ok pl ∧
      transmit (commitPlan Config.decided pl f false (accept s)) = .next t) ∨
    (∃ f o, i = .setfopt f ∧ computeOptimalPlan Config.decided f s.refFreq.toNat = .ok o ∧
      transmit (setResult o.actQ o.actM (commitPlan Config.decided o.plan o.actQ o.snap (accept s))) =
        .next t) ∨
    ((∃ w, encode i = .config w) ∧ t = s) :=
  execWith_cases (by rw [execWith_decided]; exact h)

/-- What a transmit step does: all six words are written, or the write of word `5 - k` fails after `k` writes. -/
theorem transmit_cases {s t : State fw pw} (h : transmit s = .next t) :
    (∃ rs d, t = wroteAll (txWords s.regs) rs d s) ∨
      ∃ pre i post rs d, txOrder = pre ++ i :: post ∧
        t = failedAt (pre.map fun j => (j, s.regs[j])) i s.regs[i] rs d s := by
  rcases send_cases h with hw | ⟨pre, i, v, post, rs, d, hws, ht⟩
  · exact .inl hw
  · obtain ⟨preI, restI, hI, rfl, hrest⟩ := List.map_eq_append_iff.1 (show _ = _ from hws)
    obtain ⟨j, postI, rfl, hj, rfl⟩ := List.map_eq_cons_iff.1 hrest
    simp only [Prod.mk.injEq] at hj
    obtain ⟨rfl, rfl⟩ := hj
    exact .inr ⟨preI, j, postI, rs, d, hI, ht⟩

/-! ### Every step -/

/-- Under the decided parameters the steps are those of `step`. -/
theorem stepWith_decided (s : State) : stepWith Config.decided s = step s := by
  cases h : fetch s with
  | none => simp only [stepWith, step, h]
  | some x => cases hd : decode x.1 <;> simp only [stepWith, step, h, hd, execWith_decided]

@[simp] theorem machineOf_step (c : Config) : (machineOf c).step = stepWith c := rfl
@[simp] theorem machineOf_reset (c : Config) : (machineOf c).reset = State.resetWith c := rfl

/-- Everything a step can do when it answers a next state, under any parameters: it waits, runs the decoded
instruction, or rejects an illegal command. -/
theorem stepWith_cases {c : Config} {s t : State fw pw} (h : stepWith c s = .next t) :
    (s.pending = [] ∧ t = s) ∨
    (∃ fr rest i, s.pending = fr :: rest ∧ decode fr = .ok i ∧
      execWith c i { s with pending := rest } = .next t) ∨
    (∃ fr rest e, s.pending = fr :: rest ∧ decode fr = .error e ∧
      t = execIllegal { s with pending := rest }) := by
  simp only [stepWith] at h
  cases hp : s.pending with
  | nil =>
    rw [fetch_nil s hp] at h
    injection h with h
    exact .inl ⟨rfl, h.symm⟩
  | cons fr rest =>
    rw [fetch_cons s hp] at h
    simp only at h
    cases hd : decode fr with
    | ok i => rw [hd] at h; exact .inr (.inl ⟨fr, rest, i, rfl, hd, h⟩)
    | error e =>
      rw [hd] at h
      refine .inr (.inr ⟨fr, rest, e, rfl, hd, ?_⟩)
      cases e with
      | badOpcode o => injection h with h; exact h.symm
      | badIndex i => cases h
      | badLength n => injection h with h; exact h.symm

/-- `stepWith_cases` for `step`. -/
theorem step_cases {s t : State} (h : step s = .next t) :
    (s.pending = [] ∧ t = s) ∨
    (∃ fr rest i, s.pending = fr :: rest ∧ decode fr = .ok i ∧ exec i { s with pending := rest } = .next t) ∨
    (∃ fr rest e, s.pending = fr :: rest ∧ decode fr = .error e ∧
      t = execIllegal { s with pending := rest }) := by
  simpa only [execWith_decided] using stepWith_cases (c := Config.decided) ((stepWith_decided s).trans h)

end Sys2Proof.Laws
end

