-- ==== Sys2Proof/Laws/PerInstr.lean ====
section
/-! SUPPORT. The encoding of each instruction, one lemma per constructor (30_encoding.md R80, R81, R90). -/

namespace Sys2Proof.Laws.Spelled

open Sys2Proof

/-- Whatever the operands, fitting or not, the encoding of an instruction decodes to a well-formed instruction of the
same row: an operand that does not fit never turns one instruction into another. -/
def Statement (i : Instr) : Prop :=
  ∃ j, decode (encode i) = .ok j ∧ j.mnemonic = i.mnemonic ∧ j.wf = true

theorem setf (x : Nat) : Statement (.setf x) :=
  ⟨.setf (argOf (commandWord 0x01 x)), by simp [encode, decode, decodeCommand], rfl,
    by simpa [Instr.wf] using argOf_lt (commandWord 0x01 x)⟩

theorem setfopt (x : Nat) : Statement (.setfopt x) :=
  ⟨.setfopt (argOf (commandWord 0x02 x)), by simp [encode, decode, decodeCommand], rfl,
    by simpa [Instr.wf] using argOf_lt (commandWord 0x02 x)⟩

theorem setstep (x : Nat) : Statement (.setstep x) :=
  ⟨.setstep (argOf (commandWord 0x03 x)), by simp [encode, decode, decodeCommand], rfl,
    by simpa [Instr.wf] using argOf_lt (commandWord 0x03 x)⟩

theorem getoptstep (x : Nat) : Statement (.getoptstep x) :=
  ⟨.getoptstep (argOf (commandWord 0x04 x)), by simp [encode, decode, decodeCommand], rfl,
    by simpa [Instr.wf] using argOf_lt (commandWord 0x04 x)⟩

theorem cfg0 (c : Cfg0) : Statement (.cfg0 c) :=
  ⟨.cfg0 c, by simp [encode, decode, decodeConfig, slice_cfg0_word, cfg0Of_word], rfl, rfl⟩

theorem cfg1 (c : Cfg1) : Statement (.cfg1 c) :=
  ⟨.cfg1 c, by simp [encode, decode, decodeConfig, slice_cfg1_word, cfg1Of_word], rfl, rfl⟩

theorem cfg2 (c : Cfg2) : Statement (.cfg2 c) :=
  ⟨.cfg2 c, by simp [encode, decode, decodeConfig, slice_cfg2_word, cfg2Of_word], rfl, rfl⟩

theorem cfg3 (c : Cfg3) : Statement (.cfg3 c) :=
  ⟨.cfg3 c, by simp [encode, decode, decodeConfig, slice_cfg3_word, cfg3Of_word], rfl, rfl⟩

theorem cfg4 (c : Cfg4) : Statement (.cfg4 c) :=
  ⟨.cfg4 c, by simp [encode, decode, decodeConfig, slice_cfg4_word, cfg4Of_word], rfl, rfl⟩

theorem cfg5 (c : Cfg5) : Statement (.cfg5 c) :=
  ⟨.cfg5 c, by simp [encode, decode, decodeConfig, slice_cfg5_word, cfg5Of_word], rfl, rfl⟩

end Sys2Proof.Laws.Spelled
end

