-- ==== Sys2Proof/Laws/Safety.lean ====
section
/-! SUPPORT. What the shared operations do to the invariant of `Sys2Proof/Safety.lean`. -/

namespace Sys2Proof.Laws

open Sys2Proof Sys2Proof.Machine

variable {fw pw : Nat}

/-- The invariant reads nothing of the result registers, TXLOG and the model's own fields, and of the error registers
only what is asked here again. -/
theorem inv_congr {c : Config} {s t : State fw pw} (h : Inv c s)
    (e : t = { s with
      errKind := t.errKind, errCause := t.errCause, errIdx := t.errIdx, res := t.res, resRem := t.resRem
      txLog := t.txLog, pending := t.pending, replies := t.replies, freeDraws := t.freeDraws })
    (k : t.errKind = t.errCause.map Cause.kind)
    (ei : (t.errKind ≠ some .hardwareError → t.errIdx = 0) ∧ t.errIdx.toNat ≤ 5) : Inv c t := by
  rw [e]
  refine ⟨h.1, h.2, h.3, h.4, h.5, h.6, h.7, k, ei, fun hv => ?_, fun hv => ?_⟩
  · have n := h.noPlan hv
    exact ⟨n.1, n.2, n.3, n.4, n.5, n.6, n.7⟩
  · have p := h.plan hv
    exact ⟨p.1, p.2, p.3, p.4, p.5, p.6, p.7, p.8, p.9⟩

theorem accept_inv {c : Config} {s : State fw pw} (h : Inv c s) : Inv c (accept s) :=
  inv_congr h rfl rfl ⟨fun _ => rfl, Nat.zero_le 5⟩

/-- Transport writes keep the invariant, whatever is answered. -/
theorem send_inv {c : Config} {ws : List (WordIndex × Word)} {s t : State fw pw} (h : Inv c s)
    (hs : send ws s = .next t) : Inv c t := by
  rcases send_cases hs with ⟨rs, d, rfl⟩ | ⟨pre, i, v, post, rs, d, _, rfl⟩
  · exact inv_congr h (by simp [wroteAll, h.idle]) h.kind h.errIdx
  · refine inv_congr h (by simp [failedAt, h.idle]) rfl ⟨fun k => absurd rfl k, ?_⟩
    simp only [failedAt, BitVec.toNat_ofNat]
    omega

theorem toNat_ofNat_of_lt {w n : Nat} (h : n < 2 ^ w) : (BitVec.ofNat w n).toNat = n := by
  rw [BitVec.toNat_ofNat, Nat.mod_eq_of_lt h]

/-! ### What a well-formed configuration leaves after reset (R4, R241) -/

theorem resetWith_refFreq {c : Config} (h : c.Wf) : (State.resetWith c).refFreq.toNat = c.refDefault :=
  toNat_ofNat_of_lt h.ref_fits

theorem resetWith_outFreq {c : Config} (h : c.Wf) : (State.resetWith c).outFreq.toNat = c.fDefault :=
  toNat_ofNat_of_lt h.freq_fits

theorem resetWith_pwr {c : Config} (h : c.Wf) : (State.resetWith c).pwr.toNat = c.pwrDefault :=
  toNat_ofNat_of_lt h.pwr_fits

/-- The stepsize divides the reference, so it fits wherever that does. -/
theorem resetWith_stepSize {c : Config} (h : c.Wf) : (State.resetWith c).stepSize.toNat = c.stepDefault :=
  toNat_ofNat_of_lt
    ((Nat.le_of_dvd h.ref_pos (Nat.dvd_of_mod_eq_zero h.step_divides)).trans_lt h.ref_fits)

/-- FREQ_W is at least 33, so one and a half times a target in range still fits a frequency register. -/
theorem fits_of_target {c : Config} (h : c.Wf) {x : Nat} (hx : 2 * x ≤ 3 * Const.fMax) : x < 2 ^ c.freqW := by
  have h33 : 33 ≤ c.freqW := by
    by_contra hk
    have := Nat.pow_le_pow_right (n := 2) (by omega) (show c.freqW ≤ 32 by omega)
    have := h.target_fits
    simp only [Const.fMax] at this
    omega
  have := Nat.pow_le_pow_right (n := 2) (by omega) h33
  simp only [Const.fMax] at hx
  omega

/-! ### The commit -/

/-- The commit of a plan within its bounds keeps the invariant and makes the plan live. -/
theorem commitPlan_inv {c : Config} (hc : c.Wf) {s : State fw pw} (h : Inv c s) {pl : Plan} {fo : Nat} {sn : Bool}
    (hn : pl.n ≤ Const.divExpMax) (hlo : nmin pl.p ≤ pl.int) (hhi : pl.int ≤ Const.intMax) (hr : 1 ≤ pl.r)
    (hrm : pl.r ≤ Const.rMax) (hfo : fo < 2 ^ fw) (hq : fo = pl.int * s.refFreq.toNat / pl.r)
    (hsn : sn = false → pl.int * s.refFreq.toNat = fo * pl.r ∧ inVcoRange fo pl.n = true) :
    Inv c (commitPlan c pl fo sn (accept s)) := by
  obtain ⟨⟨b1, b2⟩, b3, b4, b5⟩ := bandSelect_spec (c := c) (Nat.mul_pos hr hc.maxPfd_pos) h.ref_pos
  have hn6 : pl.n ≤ 6 := hn
  simp only [Const.bsMax, Const.intMax, Const.rMax] at *
  have e1 : (BitVec.ofNat 3 pl.n).toNat = pl.n := toNat_ofNat_of_lt (by omega)
  have e2 : (BitVec.ofNat 16 pl.int).toNat = pl.int := toNat_ofNat_of_lt (by omega)
  have e3 : (BitVec.ofNat 10 pl.r).toNat = pl.r := toNat_ofNat_of_lt (by omega)
  have e4 : (BitVec.ofNat 8 (bandSelect c s.refFreq.toNat pl.r).1).toNat = (bandSelect c s.refFreq.toNat pl.r).1 :=
    toNat_ofNat_of_lt (by omega)
  have e5 : (BitVec.ofNat fw fo).toNat = fo := toNat_ofNat_of_lt hfo
  have hp : planOf (commitPlan c pl fo sn (accept s)) = pl := by
    simp only [planOf, commitPlan, commit, e1, e2, e3]
  refine ⟨h.1, h.2, h.3, h.4, fun i => (encodeWords_index hc.layout ..).trans (h.index i),
    fun i => (encodeWords_static ..).trans (h.static i), h.7, rfl, ⟨fun _ => rfl, Nat.zero_le 5⟩,
    fun hv => by simp [commitPlan, commit] at hv, fun _ => ⟨?_, ?_, ?_, ?_, ?_, ?_, fun hs => ?_, fun hs => ?_, fun hs => ?_⟩⟩
  · simpa only [commitPlan, commit, e1] using hn
  · simpa only [commitPlan, commit, e2] using hlo
  · simpa only [commitPlan, commit, e3] using hr
  · simpa only [commitPlan, commit, accept_refFreq, e4] using b1
  · rw [hp]
    simp only [commitPlan, commit, accept_refFreq, e4]
    rw [encodeWords_encodeWords]
  · simpa only [commitPlan, commit, accept_refFreq, e2, e3, e5] using hq
  · simpa only [commitPlan, commit, accept_refFreq, e1, e2, e3, e5] using hsn hs
  · simpa only [commitPlan, commit, accept_refFreq, e3, e4] using (b5 hs).2
  · simpa only [commitPlan, commit, accept_refFreq, e3, e4] using ⟨b4 hs, b3.1 hs⟩

end Sys2Proof.Laws
end

