-- ==== Sys2Proof/Tests/Slice0.lean ====
section
/-! SUPPORT. The model's own tests. Expected values are those of 95_test_vectors.md, or computed by hand from the rules
where the comment says so. The theorems `test_witness_…` show a state and operands that meet the hypotheses of a
statement. -/

namespace Sys2Proof.Tests

open Sys2Proof Sys2Proof.Machine Sys2Proof.Stated

/-! ### Helpers -/

/-- A value read from the next state, if there is one. -/
def after {α : Type} (o : Host.Outcome State Fault Refusal) (f : State → α) : Option α :=
  match o with
  | .next t => some (f t)
  | .fault _ => none
  | .refused _ => none

/-- Why a step stopped, if it did. -/
def stopOf (o : Host.Outcome State Fault Refusal) : Option (Fault ⊕ Refusal) :=
  match o with
  | .next _ => none
  | .fault r => some (.inl r)
  | .refused r => some (.inr r)

/-- The reset state with the transport's answers settled. -/
def answering (rs : List TxReply) : State := { State.reset with replies := rs }

/-- The response codes of a state (30_encoding.md R84). -/
def codes (s : State) : Nat × Nat × Nat :=
  ((errKindCode s.errKind).toNat, (errCauseCode s.errCause).toNat, s.errIdx.toNat)

/-- A state with one frame presented. -/
def presenting (fr : Frame) (s : State) : State := { s with pending := [fr] }

/-! ### Well-formedness: a term that each check refuses -/

theorem test_wf_refuses_setf : (Instr.setf (2 ^ 64)).wf = false := by decide
theorem test_wf_refuses_setfopt : (Instr.setfopt (2 ^ 64)).wf = false := by decide
theorem test_wf_refuses_setstep : (Instr.setstep (2 ^ 64)).wf = false := by decide
theorem test_wf_refuses_getoptstep : (Instr.getoptstep (2 ^ 64)).wf = false := by decide

/-! ### Decoding: a word written out from the spec for every constructor (sections 2.5, 2.7 and 3) -/

theorem test_decode_setf : decode (.command 0x0100000000DC898500#72) = .ok (.setf 3700000000) := by decide
theorem test_decode_setfopt : decode (.command 0x020000000019DD1800#72) = .ok (.setfopt 433920000) := by decide
theorem test_decode_setstep : decode (.command 0x030000000000001388#72) = .ok (.setstep 5000) := by decide
theorem test_decode_getoptstep :
    decode (.command 0x0400000000499602D2#72) = .ok (.getoptstep 1234567890) := by decide

/-- INT 14800 (R92) -/
theorem test_decode_cfg0 : decode (.config 0x1CE80000#32) = .ok (.cfg0 ⟨0, 14800, 0⟩) := by decide
/-- The High prescaler, PHASE 1, MOD 2 (R93) -/
theorem test_decode_cfg1 : decode (.config 0x08008011#32) = .ok (.cfg1 ⟨0, 0, 1, 1, 2⟩) := by decide
/-- MUXOUT 6, R 10, FIX2 0xBF, PD polarity bit (R94), row 8 of section 2.5 -/
theorem test_decode_cfg2 :
    decode (.config 0x1802AFC2#32) = .ok (.cfg2 ⟨0, 0, 6, 0, 0, 10, 0xBF, 0, 0, 0⟩) := by decide
/-- CSR set (R95), row 8 of section 2.5 -/
theorem test_decode_cfg3 :
    decode (.config 0x00640003#32) = .ok (.cfg3 ⟨0, 0, 1, 1, 0, 1, 0, 0, 0⟩) := by decide
/-- DIVSEL 2, BANDSEL 8, RFEN 1, RFPWR 3 (R96) -/
theorem test_decode_cfg4 :
    decode (.config 0x0020803C#32) = .ok (.cfg4 ⟨0, 0, 2, 8, 0, 0, 0, 0, 0, 1, 3⟩) := by decide
/-- LDPIN 1 and the reserved bits 20 and 19 (R97) -/
theorem test_decode_cfg5 : decode (.config 0x00580005#32) = .ok (.cfg5 ⟨0, 1, 0, 3, 0⟩) := by decide

theorem test_decode_illegal :
    decode (.command 0x000000000000000000#72) = .error (.badOpcode 0) ∧
      decode (.command 0x050000000000000001#72) = .error (.badOpcode 5) := by decide
theorem test_decode_unused_index : decode (.config 0x0000000E#32) = .error (.badIndex 6) := by decide

theorem test_decode_bytes :
    decodeBytes [0x00, 0x20, 0x80, 0x3C] = .ok (.cfg4 ⟨0, 0, 2, 8, 0, 0, 0, 0, 0, 1, 3⟩) ∧
      decodeBytes [0x03, 0, 0, 0, 0, 0, 0x03, 0xD0, 0x90] = .ok (.setstep 250000) ∧
      decodeBytes [0x03, 0] = .error (.badLength 2) := by decide
theorem test_wire_bytes : wordBytes 0x08008011 = [0x08, 0x00, 0x80, 0x11] := by decide

theorem test_table_word :
    decodeTableWord 72 0x020000000000000000 = some (.setfopt 0) ∧
      decodeTableWord 32 0x00000003 = some (.cfg3 ⟨0, 0, 0, 0, 0, 0, 0, 0, 0⟩) := by decide

/-- R85, section 2.7 -/
theorem test_assemble :
    assembleLine "SETF 1_000_000_000        ; a comment".toList = some (.setf 1000000000) ∧
      assembleLine "GETOPTSTEP 1_234_567_890".toList = some (.getoptstep 1234567890) := by decide +kernel
theorem test_encode_setf : encode (.setf 39999999) = .command 0x0100000000026259FF#72 := by decide

/-! ### Shared operations -/

/-- Section 2.3, the primitives -/
theorem test_primitives :
    ceilDiv 7 2 = 4 ∧ ceilDiv 8 2 = 4 ∧ ceilDiv 1 5 = 1 ∧ roundHalfUp 1 2 = 1 ∧ roundHalfUp 5 2 = 3 ∧
      roundHalfUp 49 100 = 0 ∧ roundHalfUp 51 100 = 1 ∧ absDiff 3 10 = 7 := by decide

/-- Section 2.1: both ends of the VCO range, and the search outside the range check -/
theorem test_div_exp :
    divExp 40000000 = .ok 6 ∧ divExp 68750000 = .ok 5 ∧ divExp 1099999999 = .ok 2 ∧ divExp 1100000000 = .ok 1 ∧
      divExp 2200000000 = .ok 0 ∧ divExp 34375000 = .ok 6 ∧ divExp 34374999 = .error .noDivider ∧
      divExp 4400000001 = .error .noDivider := by decide

/-- Section 2.4 -/
theorem test_band_select :
    bandSelect Config.decided 10000000 79 = (2, false) ∧ bandSelect Config.decided 10000000 80 = (1, false) ∧
      bandSelect Config.decided 31875000 1 = (255, false) ∧ bandSelect Config.decided 31875001 1 = (255, true) := by
  decide

/-- Section 2.5, rows 5 and 7 -/
theorem test_encode_words :
    encodeWords Config.decided ⟨6, .high, 65535, 1023⟩ 255 true 3 #v[0, 0, 0, 0, 0, 0] =
        #v[0x7FFF8000, 0x08000000, 0x00FFEFC0, 0, 0x006FF038, 0] ∧
      encodeWords Config.decided ⟨2, .low, 1000, 10⟩ 8 false 1 (Vector.replicate 6 0xFFFFFFFF) =
        #v[0x81F47FFF, 0xF7FFFFFF, 0xFF02AFFF, 0xFFFFFFFF, 0xFFA08FCF, 0xFFFFFFFF] := by decide +kernel

/-! ### One step of each instruction -/

/-- P1 -/
theorem test_setf :
    after (step (presenting (.command 0x01000000003B9ACA00#72) (answering (okReplies 6))))
        (fun t => (t.regs, t.outFreq, codes t, t.txLog.map (·.index))) =
      some (#v[0x01F40000, 0x00008011, 0x0002AFC2, 0x00600003, 0x0020803C, 0x00580005], 1000000000, (0, 0, 0),
        [5, 4, 3, 2, 1, 0]) := by decide +kernel

/-- P4, command 1: the fourth write fails -/
theorem test_setf_fails :
    after (exec (.setf 2400000000) (answering (okReplies 3 ++ [.answers .fail])))
        (fun t => (t.pInt, codes t, t.txLog.map (·.index), t.txi)) =
      some (2400, (4, 11, 2), [5, 4, 3, 2], 0) := by decide +kernel

/-- Section 2.3: two candidates, 23 and 24. The second is exact. -/
theorem test_setfopt :
    after (exec (.setfopt 40000000) { answering (okReplies 6) with refFreq := 1700000000 })
        (fun t => (planOf t, t.res, t.resRem, t.snap, t.bsClamp)) =
      some (⟨6, .low, 24, 1020⟩, 40000000, 0, false, false) := by decide +kernel

/-- Section 2.3: Nmax 20 is below Nmin 23 -/
theorem test_setfopt_no_candidate :
    after (exec (.setfopt 40000000) { State.reset with refFreq := 2000000000 }) (fun t => (codes t, t.planV)) =
      some ((3, 10, 0), false) := by decide +kernel

/-- P2, command 1 -/
theorem test_setstep :
    after (exec (.setstep 250000) State.reset) (fun t => (t.stepSize, codes t, t.txLog)) =
      some (250000, (0, 0, 0), []) := by decide
/-- P3, command 3 -/
theorem test_setstep_too_large :
    after (exec (.setstep 5000) State.reset) (fun t => (t.stepSize, codes t)) = some (1000000, (3, 6, 0)) := by
  decide

/-- By hand from R193: N is 24 and r is 1020 as above, and 1700000000 = 1666666 * 1020 + 680 -/
theorem test_getoptstep :
    after (exec (.getoptstep 40000000) { State.reset with refFreq := 1700000000 })
        (fun t => (t.res, t.resRem, t.planV, codes t)) = some (1666666, 680, false, (0, 0, 0)) := by decide +kernel

/-- By hand from R21 and R60: a configuration word changes no register of the block and writes nothing (log 1). The
stored words are those of R24. -/
theorem test_cfg0 :
    after (exec (.cfg0 ⟨0, 14800, 0⟩) (answering [.answers .ok])) (fun t => (t.txLog, t.regs[0], t.replies)) =
      some ([], 0x00000000, [.answers .ok]) := by decide
theorem test_cfg1 :
    after (exec (.cfg1 ⟨0, 0, 1, 1, 2⟩) State.reset) (fun t => (t.txLog, t.regs[1], codes t)) =
      some ([], 0x00008011, (0, 0, 0)) := by decide
theorem test_cfg2 :
    after (exec (.cfg2 ⟨0, 0, 6, 0, 0, 10, 0xBF, 0, 0, 0⟩) (answering [.silent])) (fun t => (t.txLog, t.regs[2])) =
      some ([], 0x00002FC2) := by decide
theorem test_cfg3 :
    after (exec (.cfg3 ⟨0, 0, 1, 1, 0, 1, 0, 0, 0⟩) State.reset) (fun t => (t.txLog, t.regs[3])) =
      some ([], 0x00600003) := by decide
theorem test_cfg4 :
    after (exec (.cfg4 ⟨0, 0, 2, 8, 0, 0, 0, 0, 0, 1, 3⟩) State.reset) (fun t => (t.txLog, t.regs[4])) =
      some ([], 0x00000004) := by decide
theorem test_cfg5 :
    after (step (presenting (.config 0x00580005#32) State.reset)) (fun t => (t.txLog, t.regs[5], t.pending)) =
      some ([], 0x00580005, []) := by decide

/-- By hand from R66 and R246: word 0 latches what is held; a failed write leaves its word unknown. -/
theorem test_chip :
    chipAfter [⟨1, 0x11, .ok⟩, ⟨0, 0x20, .ok⟩, ⟨1, 0x31, .fail⟩] =
      ⟨#v[some 0x20, none, none, none, none, none],
        some #v[some 0x20, some 0x11, none, none, none, none], false⟩ := by decide

/-- Section 2.7, the illegal row -/
theorem test_illegal :
    after (step (presenting (.command 0x050000000000000001#72) State.reset)) (fun t => (codes t, t.pending)) =
      some ((5, 12, 0), []) := by decide
theorem test_silent_transport :
    stopOf (exec (.setf 1000000000) (answering (okReplies 2 ++ [.silent]))) = some (.inl .transportSilent) := by decide +kernel
theorem test_unused_index :
    stopOf (step (presenting (.config 0x00000007#32) State.reset)) = some (.inr (.unusedWordIndex 7)) := by decide
theorem test_fetch_word :
    after (step (State.reset.withFetchWord 72 0x0300000000000F4240)) (fun t => (t.stepSize, codes t)) =
      some (1000000, (0, 0, 0)) := by decide

/-! ### Witnesses: states and operands that meet the hypotheses of the statements -/

theorem decided_wf : Config.decided.Wf where
  ref_pos := by decide
  maxPfd_pos := by decide
  threshold := by decide
  layout := by constructor <;> decide
  fix2_fits := by decide
  step_pos := by decide
  step_divides := by decide
  step_ratio := by decide
  index := by decide
  target_fits := by decide
  response_fits := by decide
  ref_fits := by decide
  freq_fits := by decide
  pwr_fits := by decide

/-- Another configuration: the other threshold of D2, another ceiling of D3, the other tie rule of D8, and frequency
registers of 33 bits, the least width that holds every target (D1). -/
def revision : Config :=
  { freqW := 33, prescThreshold := 1000000000, maxPfd := 50000, roundTie := .halfEven }

theorem revision_wf : revision.Wf where
  ref_pos := by decide
  maxPfd_pos := by decide
  threshold := by decide
  layout := by constructor <;> decide
  fix2_fits := by decide
  step_pos := by decide
  step_divides := by decide
  step_ratio := by decide
  index := by decide
  target_fits := by decide
  response_fits := by decide
  ref_fits := by decide
  freq_fits := by decide
  pwr_fits := by decide

theorem test_witness_EveryWellFormedInstructionDecodesBack : (Instr.setfopt (2 ^ 64 - 1)).wf = true := by decide
theorem test_witness_EveryDecodedFrameEncodesBack :
    decode (.command 0x02FFFFFFFFFFFFFFFF#72) = .ok (.setfopt (2 ^ 64 - 1)) := by decide
/-- One word for each of the six clauses, every bit above the index set. -/
theorem test_witness_ConfigWordIsTheSumOfItsFields :
    [0xFFFFFFF8#32, 0xFFFFFFF9#32, 0xFFFFFFFA#32, 0xFFFFFFFB#32, 0xFFFFFFFC#32, 0xFFFFFFFD#32].map
      (fun w => w.toNat % 8) = [0, 1, 2, 3, 4, 5] := by decide
theorem test_witness_StepRunsTheDecodedInstruction :
    (presenting (.command 0x03000000000003D090#72) State.reset).pending = [.command 0x03000000000003D090#72] ∧
      decode (.command 0x03000000000003D090#72) = .ok (.setstep 250000) := by decide
/-- Nothing presented; and the index bits 6 and 7. -/
theorem test_witness_StepWithoutAnInstruction :
    State.reset.pending = [] ∧ 6 ≤ (0x00000006#32).toNat % 8 ∧ 6 ≤ (0xFFFFFFFF#32).toNat % 8 := by decide
/-- The opcodes 0, 5 and 255. -/
theorem test_witness_IllegalCommandChangesOnlyTheErrorRegisters :
    (0x00FFFFFFFFFFFFFFFF#72).toNat / 2 ^ 64 = 0 ∧ 5 ≤ (0x050000000000000000#72).toNat / 2 ^ 64 ∧
      5 ≤ (0xFF0000000000000000#72).toNat / 2 ^ 64 := by decide
theorem test_witness_StepTakesOneFrame : ∃ t, step (presenting (.command 0#72) State.reset) = .next t := ⟨_, rfl⟩
theorem test_witness_ResetArgumentsLastForTheWholeLife :
    Config.decided.Wf ∧ ∃ t, step State.reset = .next t := ⟨decided_wf, _, rfl⟩
theorem test_witness_ArithmeticPrimitives : 0 < 1 := by decide

/-- Section 2.1: the least exponent at both ends of the VCO range, and a target that has none. -/
theorem test_witness_DividerSearchAnswersTheLeastExponent :
    leastExp 34375000 6 ∧ leastExp 4400000000 0 ∧ ∀ n ≤ 6, ¬ vcoOk 34374999 n := by
  unfold leastExp vcoOk; decide
theorem test_witness_NoDividerIsNeverRaised :
    inRange 40000000 ∧ inRange 4400000000 ∧ isCommand (.setstep 5000) ∧
      (∃ t, exec (.setstep 5000) State.reset = .next t) ∧ State.reset.errCause ≠ some .noDivider ∧
      ∃ t, exec (.cfg3 ⟨0, 0, 0, 0, 0, 0, 0, 0, 0⟩) State.reset = .next t := by
  unfold inRange; exact ⟨by decide, by decide, trivial, ⟨_, rfl⟩, by decide, _, rfl⟩
/-- The quotients 1, 255 and 256 of section 2.4. -/
theorem test_witness_BandSelectIsTheClampedCeiling :
    0 < 1 * Config.decided.maxPfd ∧ 125000 ≤ 1 * Config.decided.maxPfd ∧
      (1 * Config.decided.maxPfd < 31875000 ∧ (255 - 1) * (1 * Config.decided.maxPfd) < 31875000 ∧
        31875000 ≤ 255 * (1 * Config.decided.maxPfd)) ∧
      (256 - 1) * (1 * Config.decided.maxPfd) < 31875001 ∧ 31875001 ≤ 256 * (1 * Config.decided.maxPfd) := by
  decide
theorem test_witness_EncoderWritesTheDecidedWords :
    ((⟨6, .high, 65535, 1023⟩ : Plan).n ≤ 6 ∧ (65535 : Nat) ≤ 65535 ∧ (1023 : Nat) ≤ 1023 ∧ (255 : Nat) ≤ 255) ∧
      (⟨0, .low, 0, 0⟩ : Plan).n ≤ 6 := by decide
/-- Bit 0 of word 0 and bit 31 of word 4 lie in no dynamic field. -/
theorem test_witness_EncoderKeepsStaticBits :
    (∀ f ∈ Config.decided.layout.fields, ¬ (f.word = 0 ∧ f.lo ≤ 0 ∧ 0 ≤ f.hi)) ∧
      ∀ f ∈ Config.decided.layout.fields, ¬ (f.word = 4 ∧ f.lo ≤ 31 ∧ 31 ≤ f.hi) := by decide
theorem test_witness_EncodedFieldsReadBack :
    Config.decided.Wf ∧ (⟨6, .high, 65535, 1023⟩ : Plan).n ≤ 6 := ⟨decided_wf, by decide⟩

/-- A state whose grid is 2.5 MHz (section 2.2). -/
def coarse (rs : List TxReply) : State := { answering rs with stepSize := 2500000 }

/-- `N` is Nmin exactly, `57500000 / 2500000 = 23` (section 2.2). -/
theorem plannable_at_nmin (rs : List TxReply) : gridPlannable 57500000 6 (coarse rs) := by
  have h1 : (coarse rs).refFreq = 10000000#64 := rfl
  have h2 : (coarse rs).stepSize = 2500000#64 := rfl
  unfold gridPlannable inRange leastExp vcoOk nminOf
  rw [h1, h2]
  decide
theorem test_witness_SetfCommitsAndTransmits :
    gridPlannable 57500000 6 (coarse (okReplies 6)) ∧ (coarse (okReplies 6)).replies = okReplies 6 ++ [] :=
  ⟨plannable_at_nmin _, rfl⟩
/-- Every check of SETF fails somewhere (section 2.2, and the boundaries of R120). -/
theorem test_witness_SetfRejectsAtTheFirstFailingCheck :
    [gridFailure 39999999 7 10000000, gridFailure 4400000001 0 10000000, gridFailure 1000000000 0 10000000,
      gridFailure 1000000000 3 10000000, gridFailure 102400000 10000 10240000, gridFailure 3700000001 250000 10000000,
      gridFailure 55000000 2500000 10000000, gridFailure 1000000000 10000 10000000] =
    [some (.rangeError, .fBelowMin), some (.rangeError, .fAboveMax), some (.ratioError, .stepZero),
      some (.ratioError, .ratioNotInteger), some (.ratioError, .ratioTooLarge), some (.gridError, .notOnGrid),
      some (.gridError, .intBelowNmin), some (.gridError, .intAboveMax)] := by decide
/-- The first write fails, and the last one. -/
theorem test_witness_SetfEndsAtAFailedWrite :
    (∃ v post, gridPlannable 57500000 6 (coarse [.answers .fail]) ∧
      writesOf (wordsFor 57500000 6 23 4 (coarse [.answers .fail])) = [] ++ (5, v) :: post) ∧
    ∃ pre v, pre.length = 5 ∧ gridPlannable 57500000 6 (coarse (okReplies 5 ++ [.answers .fail])) ∧
      writesOf (wordsFor 57500000 6 23 4 (coarse (okReplies 5 ++ [.answers .fail]))) = pre ++ (0, v) :: [] :=
  ⟨⟨_, _, plannable_at_nmin _, rfl⟩, [(5, _), (4, _), (3, _), (2, _), (1, _)], _, rfl, plannable_at_nmin _, rfl⟩
/-- The first write is never answered, and the last one. -/
theorem test_witness_SetfHangsOnASilentTransport :
    (gridPlannable 57500000 6 (coarse [.silent]) ∧ (coarse [.silent]).replies = okReplies 0 ++ .silent :: []) ∧
      gridPlannable 57500000 6 (coarse (okReplies 5 ++ [.silent])) := ⟨⟨plannable_at_nmin _, rfl⟩, plannable_at_nmin _⟩
theorem test_witness_SetfCompletesForEveryAnswer :
    gridPlannable 57500000 6 (coarse []) ∧ TxReply.silent ∉ (coarse []).replies := ⟨plannable_at_nmin _, by decide⟩
theorem test_witness_SetfPlanIsExact :
    ∃ t, exec (.setf 57500000) (coarse (okReplies 6)) = .next t ∧ t.errKind = none := ⟨_, rfl, by decide⟩
theorem test_witness_RepeatedSetfSendsTheSameWords :
    ∃ t u, exec (.setf 57500000) (coarse (okReplies 12)) = .next t ∧ t.errKind = none ∧
      exec (.setf 57500000) t = .next u ∧ u.errKind = none := ⟨_, _, rfl, by decide +kernel, rfl, by decide +kernel⟩

/-- A state with a fast reference, for which the search is short (section 2.3). -/
def fast (ref : BitVec 64) (rs : List TxReply) : State := { answering rs with refFreq := ref }

/-- Two candidates, 23 and 24; the greater one is exact (section 2.3). -/
theorem plannable_fast (rs : List TxReply) : optPlannable 40000000 6 24 (fast 1700000000 rs) := by
  refine ⟨?_, ?_, ?_, ⟨?_, ?_, ?_, ?_⟩, fun M hM => ?_⟩
  · show 0 < (1700000000#64).toNat; decide
  · unfold inRange; decide
  · unfold leastExp vcoOk; decide
  · decide
  · show 24 ≤ 1023 * 40000000 / (1700000000#64).toNat; decide
  · decide
  · show 1 ≤ divisorOf 40000000 (1700000000#64).toNat 24; decide
  · obtain ⟨h1, h2, -, -⟩ := hM
    change 23 ≤ M at h1
    change M ≤ 1023 * 40000000 / (1700000000#64).toNat at h2
    have h3 : 1023 * 40000000 / (1700000000#64).toNat = 24 := by decide
    rw [h3] at h2
    show deviationOf 40000000 (1700000000#64).toNat 24 ≤ deviationOf 40000000 (1700000000#64).toNat M ∧
      (M < 24 → deviationOf 40000000 (1700000000#64).toNat 24 < deviationOf 40000000 (1700000000#64).toNat M)
    interval_cases M <;> decide
theorem test_witness_SetfoptCommitsTheBestPair :
    optPlannable 40000000 6 24 (fast 1700000000 (okReplies 6)) ∧
      (fast 1700000000 (okReplies 6)).replies = okReplies 6 ++ [] := ⟨plannable_fast _, rfl⟩
theorem test_witness_SetfoptEndsAtAFailedWrite :
    ∃ v post, optPlannable 40000000 6 24 (fast 1700000000 [.answers .fail]) ∧
      writesOf (wordsFor 40000000 6 24 1020 (fast 1700000000 [.answers .fail])) = [] ++ (5, v) :: post :=
  ⟨_, _, plannable_fast _, rfl⟩
theorem test_witness_SetfoptHangsOnASilentTransport :
    (optPlannable 40000000 6 24 (fast 1700000000 [.silent]) ∧
      (fast 1700000000 [.silent]).replies = okReplies 0 ++ .silent :: []) ∧
      optPlannable 40000000 6 24 (fast 1700000000 (okReplies 5 ++ [.silent])) :=
  ⟨⟨plannable_fast _, rfl⟩, plannable_fast _⟩
theorem test_witness_SetfoptCompletesForEveryAnswer :
    optPlannable 40000000 6 24 (fast 1700000000 []) ∧ TxReply.silent ∉ (fast 1700000000 []).replies :=
  ⟨plannable_fast _, by decide⟩
theorem test_witness_GetoptstepAnswersTheGridStep : optPlannable 40000000 6 24 (fast 1700000000 []) :=
  plannable_fast _
/-- Both ends of the range, and a reference for which Nmax 20 is below Nmin 23 (section 2.3). -/
theorem test_witness_OptimalCommandsRejectedForRangeOrNoCandidate :
    (39999999 < 40000000 ∧ 4400000000 < 4400000001) ∧ inRange 40000000 ∧
      ∀ N, ¬ candidate 40000000 (fast 2000000000 []).refFreq.toNat N := by
  refine ⟨by decide, by unfold inRange; decide, fun N hN => ?_⟩
  obtain ⟨h1, h2, -, -⟩ := hN
  change 23 ≤ N at h1
  change N ≤ 1023 * 40000000 / (2000000000#64).toNat at h2
  have h3 : 1023 * 40000000 / (2000000000#64).toNat = 20 := by decide
  omega
theorem test_witness_SetfoptResponseIsExact :
    (∃ t, exec (.setfopt 40000000) (fast 1700000000 (okReplies 6)) = .next t ∧ t.errKind = none) ∧
      ∃ t, exec (.setfopt 40000000) (fast 1700000000 [.answers .fail]) = .next t ∧
        t.errKind = some .hardwareError := ⟨⟨_, rfl, by decide +kernel⟩, _, rfl, by decide +kernel⟩
/-- By hand: 23 candidates from 23 on, the first one exact, `23 * 10^9 = 500 * 46 * 10^6`, so r is 500. -/
theorem test_witness_GetoptstepResponseIsAStepsize :
    0 < (fast 1000000000 []).refFreq.toNat ∧
      ∃ t, exec (.getoptstep 46000000) (fast 1000000000 []) = .next t ∧ t.errKind = none ∧ t.resRem = 0 ∧
        t.res = 2000000 := ⟨by decide, _, rfl, by decide +kernel, by decide +kernel, by decide +kernel⟩
theorem test_witness_OptimalCommandsAcceptEveryTargetAtTenMegahertz :
    State.reset.refFreq = 10000000#64 ∧ inRange 40000000 ∧ inRange 4400000000 ∧
      TxReply.silent ∉ State.reset.replies := by unfold inRange; decide
theorem test_witness_OptimalCommandsIgnoreTheStepsize :
    Instr.getoptstep 40000000 = .setfopt 40000000 ∨ Instr.getoptstep 40000000 = .getoptstep 40000000 := .inr rfl

/-- Every reply a write can get. -/
theorem test_witness_TxWriteRecordsTheWordAndItsAnswer :
    (answering [.answers .ok]).replies = .answers .ok :: [] ∧
      (answering [.answers .fail]).replies = .answers .fail :: [] ∧ (answering [.silent]).replies = .silent :: [] ∧
      State.reset.replies = [] := by decide
theorem test_witness_OnlyACommitWritesThePlan :
    (∃ t, exec (.getoptstep 1) State.reset = .next t ∧ ¬ isSet (.getoptstep 1)) ∧
      ∃ t, exec (.cfg5 ⟨0, 1, 0, 3, 0⟩) State.reset = .next t ∧ ¬ isSet (.cfg5 ⟨0, 1, 0, 3, 0⟩) :=
  ⟨⟨_, rfl, fun h => h⟩, _, rfl, fun h => h⟩
theorem test_witness_ValidationErrorsArePrecise :
    ∃ t, step (presenting (.command 0x030000000000001388#72) State.reset) = .next t ∧ t.errKind ≠ none ∧
      t.errKind ≠ some .hardwareError := ⟨_, rfl, by decide, by decide⟩
theorem test_witness_CommandLogIsOrdered :
    (∃ t, exec (.setf 57500000) (coarse [.answers .fail]) = .next t) ∧
      ∃ t, exec (.cfg0 ⟨0, 1, 0⟩) State.reset = .next t := ⟨⟨_, rfl⟩, _, rfl⟩
theorem test_witness_SuccessfulSetTakesEffectAtTheChip :
    isSet (.setf 57500000) ∧ ∃ t, exec (.setf 57500000) (coarse (okReplies 6)) = .next t ∧ t.errKind = none ∧
      DeliversInOrder t.txLog t.txLog := ⟨trivial, _, rfl, by decide, rfl⟩
/-- The first write fails, and the last one. -/
theorem test_witness_FailedSetLeavesTheOldConfigurationInEffect :
    isSet (.setf 57500000) ∧
      (∃ t, exec (.setf 57500000) (coarse [.answers .fail]) = .next t ∧ t.errKind = some .hardwareError ∧
        t.errIdx = 5 ∧ DeliversInOrder (coarse [.answers .fail]).txLog [] ∧ DeliversInOrder t.txLog t.txLog) ∧
      ∃ t, exec (.setf 57500000) (coarse (okReplies 5 ++ [.answers .fail])) = .next t ∧
        t.errKind = some .hardwareError ∧ t.errIdx = 0 :=
  ⟨trivial, ⟨_, rfl, by decide +kernel, by decide +kernel, rfl, rfl⟩, _, rfl, by decide +kernel, by decide +kernel⟩
theorem test_witness_NoStepChangesAStaticBit :
    ∃ t, step (presenting (.command 0x01000000003B9ACA00#72) (answering (okReplies 6))) = .next t ∧
      t.regs ≠ State.reset.regs := ⟨_, rfl, by decide +kernel⟩
theorem test_witness_InvariantHoldsAfterReset : Config.decided.Wf := decided_wf

/-- The invariant with a live plan: the state after P1. And the invariant after reset with other parameters. -/
theorem test_witness_EveryStepKeepsTheInvariant :
    (∃ s t, Inv Config.decided s ∧ s.planV = true ∧
      step (presenting (.command 0x030000000000001388#72) s) = .next t) ∧
    revision.Wf ∧ Inv revision (State.resetWith revision) ∧
      ∃ t, stepWith revision (State.resetWith revision) = .next t := by
  have h0 : Inv Config.decided State.reset :=
    ⟨by decide, by decide, by decide, by decide, by decide, fun _ => rfl, rfl, rfl, by decide,
      fun _ => by constructor <;> rfl, fun h => by cases h⟩
  have h1 := Laws.commitPlan_inv decided_wf h0 (pl := ⟨2, .low, 1000, 10⟩) (fo := 1000000000) (sn := false)
    (by decide) (by decide) (by decide) (by decide) (by decide) (by decide) (by decide) (by decide)
  exact ⟨⟨_, _, h1, rfl, rfl⟩, revision_wf,
    ⟨by decide, by decide, by decide, by decide, by decide, fun _ => rfl, rfl, rfl, by decide,
      fun _ => by constructor <;> rfl, fun h => by cases h⟩, _, rfl⟩

/-- The first index and the last one. -/
theorem test_witness_ConfigWordActsAtTheChipAlone :
    (encode (.cfg0 ⟨0, 14800, 0⟩) = .config 0x1CE80000 ∧ (0x1CE80000#32).toNat % 8 = ((0 : WordIndex) : Nat)) ∧
      encode (.cfg5 ⟨0, 1, 0, 3, 0⟩) = .config 0x00580005 ∧
        (0x00580005#32).toNat % 8 = ((5 : WordIndex) : Nat) := by decide
theorem test_witness_TransmittedWordsReadBackThePlan :
    isSet (.setf 57500000) ∧ (∀ j : WordIndex, ((coarse (okReplies 6)).regs[j]).toNat % 8 = j) ∧
      (∃ t, exec (.setf 57500000) (coarse (okReplies 6)) = .next t ∧ t.errKind = none) ∧
      ∃ t, exec (.setf 57500000) (coarse [.answers .fail]) = .next t ∧ t.errKind = some .hardwareError :=
  ⟨trivial, by decide, ⟨_, rfl, by decide⟩, _, rfl, by decide +kernel⟩
theorem test_witness_ParametersAreArgumentsOfTheStep :
    ({ State.resetWith revision with pending := [.command 0x03000000000003D090#72] }).pending =
        [.command 0x03000000000003D090#72] ∧
      decode (.command 0x03000000000003D090#72) = .ok (.setstep 250000) := by decide

/-- 1.5 GHz lies between the two thresholds of D2: the High prescaler under `revision`, the Low one when decided. -/
theorem test_witness_SetfReadsTheParameters :
    (revision.Wf ∧ 0 < (State.resetWith revision).refFreq.toNat ∧
      ∃ t, execWith revision (.setf 1500000000) { State.resetWith revision with replies := okReplies 6 } = .next t ∧
        t.errKind = none ∧ t.pPresc = .high ∧ t.pBs = 20) ∧
    ∃ t, execWith Config.decided (.setf 1500000000) (answering (okReplies 6)) = .next t ∧
      t.errKind = none ∧ t.pPresc = .low ∧ t.pBs = 8 :=
  ⟨⟨revision_wf, by decide, _, rfl, by decide +kernel, by decide +kernel, by decide +kernel⟩, _, rfl,
    by decide +kernel, by decide +kernel, by decide +kernel⟩

/-- By hand: 23 is the one candidate, and `23 * 1740000000 / 40000000` is 1000.5, a tie. -/
theorem test_witness_SetfoptReadsTheTieRule :
    (revision.Wf ∧ ∃ t, execWith revision (.setfopt 40000000)
        { State.resetWith revision with refFreq := 1740000000, replies := okReplies 6 } = .next t ∧
      t.errKind = none ∧ t.pInt = 23 ∧ t.pR = 1000) ∧
    ∃ t, execWith Config.decided (.setfopt 40000000) (fast 1740000000 (okReplies 6)) = .next t ∧
      t.errKind = none ∧ t.pInt = 23 ∧ t.pR = 1001 :=
  ⟨⟨revision_wf, _, rfl, by decide +kernel, by decide +kernel, by decide +kernel⟩, _, rfl,
    by decide +kernel, by decide +kernel, by decide +kernel⟩
theorem test_witness_OptimalCommandsAcceptATargetWithACandidate :
    inRange 40000000 ∧ (∃ N, candidate 40000000 (fast 1700000000 []).refFreq.toNat N) ∧
      TxReply.silent ∉ (fast 1700000000 []).replies :=
  ⟨by unfold inRange; decide, ⟨24, (plannable_fast []).2.2.2.1⟩, by decide⟩

end Sys2Proof.Tests
end

/-! PROOFS. The statements of 00_scope.md: the arithmetic primitives (R7), the parameters as arguments of the step (R4),
and the tie rule of the reference divisor (R131). -/

namespace Sys2Proof.Proofs

open Sys2Proof Sys2Proof.Machine Sys2Proof.Laws

variable {fw pw : Nat}

/-! ### Arithmetic primitives (R7) -/

theorem mod_add_floorDiv_mul (a b : Nat) : a % b + floorDiv a b * b = a := Nat.mod_add_div' a b

theorem floorDiv_mul_le (a b : Nat) : floorDiv a b * b ≤ a := Nat.div_mul_le_self a b

theorem le_floorDiv {a b q : Nat} (hb : 0 < b) (h : q * b ≤ a) : q ≤ floorDiv a b :=
  (Nat.le_div_iff_mul_le hb).2 h

theorem divides_iff_exists_mul (b a : Nat) : divides b a = true ↔ ∃ q, a = q * b := by
  rw [divides_iff, dvd_iff_exists_eq_mul_left]

theorem absDiff_eq_abs (a b : Nat) : (absDiff a b : Int) = |(a : Int) - b| := by
  rw [absDiff]
  split
  · rw [abs_of_nonneg] <;> omega
  · rw [abs_of_neg] <;> omega

/-- Settles O15, one law of each primitive at a time. -/
theorem arithmeticPrimitives : Obligations.ArithmeticPrimitives := fun a b hb =>
  ⟨⟨mod_add_floorDiv_mul a b, Nat.mod_lt a hb⟩,
   ⟨floorDiv_mul_le a b, fun _ => le_floorDiv hb⟩,
   ⟨le_ceilDiv_mul hb, fun q => (ceilDiv_le_iff hb q).2⟩,
   roundHalfUp_bounds a hb,
   divides_iff_exists_mul b a, absDiff_eq_abs a b⟩

/-! ### Ties of `round_div` (R7, D8) -/

/-- Half a divisor below a multiple of it, the remainder is half the divisor. -/
theorem two_mul_mod_of_tie {a b q : Nat} (hb : 0 < b) (h : 2 * (q * b) = 2 * a + b) : 2 * (a % b) = b := by
  cases q with
  | zero => omega
  | succ p =>
    obtain ⟨k, rfl⟩ : ∃ k, b = 2 * k := ⟨(p + 1) * b - a, by omega⟩
    have ha : a = 2 * k * p + k := by linarith
    rw [ha, Nat.mul_add_mod, Nat.mod_eq_of_lt (by omega)]

theorem roundHalfEven_even_of_tie {a b : Nat} (h : 2 * (a % b) = b) : roundHalfEven a b % 2 = 0 := by
  rw [roundHalfEven, if_pos h]
  omega

theorem roundHalfEven_of_no_tie {a b : Nat} (h : 2 * (a % b) ≠ b) : roundHalfEven a b = roundHalfUp a b := if_neg h

/-- A tie is rounded down by half to even alone, and then to an even number. -/
theorem roundDiv_tie_down {t : RoundTie} {a b : Nat} (hb : 0 < b) (h : 2 * a = 2 * (roundDiv t a b * b) + b) :
    t = .halfEven ∧ roundDiv t a b % 2 = 0 := by
  have up := (roundHalfUp_bounds a hb).2
  cases t with
  | halfUp => exact absurd h up.ne
  | halfEven =>
    refine ⟨rfl, roundHalfEven_even_of_tie ?_⟩
    by_contra hne
    rw [roundDiv, roundHalfEven_of_no_tie hne] at h
    exact up.ne h

/-- A tie is rounded up by half up, or to an even number. -/
theorem roundDiv_tie_up {t : RoundTie} {a b : Nat} (hb : 0 < b) (h : 2 * (roundDiv t a b * b) = 2 * a + b) :
    t = .halfUp ∨ roundDiv t a b % 2 = 0 := by
  cases t with
  | halfUp => exact .inl rfl
  | halfEven => exact .inr (roundHalfEven_even_of_tie (two_mul_mod_of_tie hb h))

/-! ### The plan that SETFOPT leaves (R131, R191) -/

theorem kind_eq_hardwareError_iff (e : Cause) : e.kind = .hardwareError ↔ e = .txFail := by
  cases e <;> decide

/-- A transmit step, whatever is answered, changes only the error registers, TXI, TXLOG and the model's own account of
the answers. -/
theorem transmit_frame {s t : State fw pw} (h : transmit s = .next t) :
    t = { s with
      errKind := t.errKind, errCause := t.errCause, errIdx := t.errIdx, txi := t.txi
      txLog := t.txLog, replies := t.replies, freeDraws := t.freeDraws } := by
  rcases transmit_cases h with ⟨rs, d, rfl⟩ | ⟨pre, i, post, rs, d, -, rfl⟩ <;> rfl

theorem transmit_pInt {s t : State fw pw} (h : transmit s = .next t) : t.pInt = s.pInt := by
  rw [transmit_frame h]

theorem transmit_pR {s t : State fw pw} (h : transmit s = .next t) : t.pR = s.pR := by
  rw [transmit_frame h]

/-- A SETFOPT without error or with HardwareError has passed its checks: it committed and transmitted its plan. -/
theorem setfopt_transmits {c : Config} {f : Nat} {s t : State fw pw} (h : setFrequencyOptimally c f s = .next t)
    (hk : t.errKind = none ∨ t.errKind = some .hardwareError) :
    ∃ o, computeOptimalPlan c f s.refFreq.toNat = .ok o ∧
      transmit (setResult o.actQ o.actM (commitPlan c o.plan o.actQ o.snap (accept s))) = .next t := by
  rcases setFrequencyOptimally_cases h with ⟨e, he, rfl⟩ | committed
  · simp [kind_eq_hardwareError_iff, (computeOptimalPlan_error he).1] at hk
  · exact committed

/-- The divisor of an accepted SETFOPT is that of its feedback integer (R131). -/
theorem setfopt_pR {c : Config} {f : Nat} {s t : State fw pw} (h : setFrequencyOptimally c f s = .next t)
    (hk : t.errKind = none ∨ t.errKind = some .hardwareError) :
    0 < f ∧ t.pR.toNat = roundDiv c.roundTie (t.pInt.toNat * s.refFreq.toNat) f := by
  obtain ⟨o, ho, ht⟩ := setfopt_transmits h hk
  obtain ⟨⟨hmin, -⟩, n, N, -, hbest, rfl⟩ := (computeOptimalPlan_ok_iff ..).1 ho
  have hf : 0 < f := lt_of_lt_of_le (by decide) hmin
  obtain ⟨-, hr, -, hN⟩ := isBest_bounds hf hbest
  have hint : t.pInt.toNat = N := by
    rw [transmit_pInt ht]
    exact toNat_ofNat_of_lt (Nat.lt_succ_of_le hN)
  refine ⟨hf, ?_⟩
  rw [transmit_pR ht, hint]
  exact toNat_ofNat_of_lt (Nat.lt_succ_of_le hr)

/-- Settles O56: the divisor is `round_div` of the feedback integer's multiple of the reference, and its laws under
either tie rule are the four clauses. -/
theorem setfoptReadsTheTieRule : Obligations.SetfoptReadsTheTieRule := by
  intro c s t f _ h hk
  obtain ⟨hf, hr⟩ := setfopt_pR h hk
  have near := roundDiv_bounds c.roundTie (t.pInt.toNat * s.refFreq.toNat) hf
  rw [hr]
  exact ⟨near.2, near.1, roundDiv_tie_down hf, roundDiv_tie_up hf⟩

/-! ### The parameters (R4, R41) -/

theorem stepWith_of_decode (c : Config) {s : State fw pw} {fr : Frame} {rest : List Frame} {i : Instr}
    (hp : s.pending = fr :: rest) (hd : decode fr = .ok i) :
    stepWith c s = execWith c i { s with pending := rest } := by
  simp only [stepWith, fetch_cons s hp, hd]

/-- Settles O54: the decided configuration gives `exec` and `step`, and the machine of any other runs what it decodes. -/
theorem parametersAreArgumentsOfTheStep : Obligations.ParametersAreArgumentsOfTheStep :=
  ⟨execWith_decided, stepWith_decided, fun c =>
    ⟨machineOf_reset c, machineOf_step c, fun _ _ _ _ => stepWith_of_decode c⟩⟩

end Sys2Proof.Proofs

/-! PROOFS. The statements of 10_state.md: the values after reset (R45), the invariant of the block at reset and over
every step (R22 to R40), what a command other than the two that set the frequency leaves alone (R32, R46), and that no
command reads REFSRC (R26). -/

namespace Sys2Proof.Proofs

open Sys2Proof Sys2Proof.Machine Sys2Proof.Laws Sys2Proof.Stated

variable {fw pw : Nat}

/-! ### What the invariant survives -/

/-- An error raised before the commit is recorded in ERRKIND and ERRCAUSE alone (R210). -/
theorem raise_of_ne_txFail {e : Cause} (he : e ≠ .txFail) (s : State fw pw) :
    raise e s = { s with errKind := some e.kind, errCause := some e } := by
  simp only [raise]
  split
  next hk => exact absurd ((kind_eq_hardwareError_iff e).1 hk) he
  next => rfl

theorem pending_inv {c : Config} {s : State fw pw} (h : Inv c s) (frames : List Frame) :
    Inv c { s with pending := frames } :=
  inv_congr h rfl h.kind h.errIdx

theorem setResult_inv {c : Config} {s : State fw pw} (h : Inv c s) (q m : Nat) : Inv c (setResult q m s) :=
  inv_congr h rfl h.kind h.errIdx

theorem reject_inv {c : Config} {s : State fw pw} (h : Inv c s) {e : Cause} (he : e ≠ .txFail) :
    Inv c (raise e (accept s)) := by
  rw [raise_of_ne_txFail he]
  exact inv_congr h rfl rfl ⟨fun _ => rfl, Nat.zero_le 5⟩

/-- A stepsize that passes the ratio check divides the reference, so it fits STEPSIZE and meets R30. -/
theorem storeStepsize_inv {c : Config} {s : State fw pw} (h : Inv c s) {hz r : Nat}
    (hr : ratioCheck hz s.refFreq.toNat = .ok r) : Inv c { s with stepSize := BitVec.ofNat fw hz } := by
  obtain ⟨hpos, hdvd, hratio, -⟩ := (ratioCheck_ok_iff ..).1 hr
  have hle : hz ≤ s.refFreq.toNat := Nat.le_of_dvd h.ref_pos (Nat.dvd_of_mod_eq_zero hdvd)
  have hfit : (BitVec.ofNat fw hz).toNat = hz := toNat_ofNat_of_lt (hle.trans_lt s.refFreq.isLt)
  refine ⟨h.ref_pos, ?_, ?_, ?_, h.index, h.static, h.idle, h.kind, h.errIdx, fun hv => ?_, fun hv => ?_⟩
  · simpa only [hfit] using Nat.pos_of_ne_zero hpos
  · simpa only [hfit] using hdvd
  · simpa only [hfit] using hratio
  · obtain ⟨hn, hp, hi, hr, hb, hs, hc⟩ := h.noPlan hv
    exact ⟨hn, hp, hi, hr, hb, hs, hc⟩
  · obtain ⟨hn, hi, hr, hb, hw, ho, hx, hu, hc⟩ := h.plan hv
    exact ⟨hn, hi, hr, hb, hw, ho, hx, hu, hc⟩

/-- A validated grid plan is within its bounds, and it is exact (R126, R127). -/
theorem commitGridPlan_inv {c : Config} (hc : c.Wf) {s : State c.freqW c.pwrW} (h : Inv c s) {f : Nat} {pl : Plan}
    (hp : computeGridPlan c f s.stepSize.toNat s.refFreq.toNat = .ok pl) :
    Inv c (commitPlan c pl f false (accept s)) := by
  have hexact := gridPlan_exact hp
  obtain ⟨⟨-, hmax⟩, hn, hpresc, hr, hint⟩ := (computeGridPlan_ok_iff ..).1 hp
  obtain ⟨hn6, hvco, -⟩ := (divExp_ok_iff ..).1 hn
  obtain ⟨hstep, hdvd, hrmax, hr⟩ := (ratioCheck_ok_iff ..).1 hr
  obtain ⟨-, hlo, hhi, hint⟩ := (gridCheck_ok_iff ..).1 hint
  have hrpos : 0 < pl.r := by
    rw [hr]
    exact Nat.div_pos (Nat.le_of_dvd h.ref_pos (Nat.dvd_of_mod_eq_zero hdvd)) (Nat.pos_of_ne_zero hstep)
  refine commitPlan_inv hc h hn6 ?_ ?_ hrpos ?_ (hmax.trans_lt hc.target_fits) ?_ fun _ => ⟨hexact, hvco⟩
  · rw [hpresc, hint]
    exact hlo
  · rw [hint]
    exact hhi
  · rw [hr]
    exact hrmax
  · rw [hexact, Nat.mul_div_cancel _ hrpos]

/-- An optimal plan is within its bounds (R135), and where it is exact its frequency is the target (R133). -/
theorem commitOptimalPlan_inv {c : Config} (hc : c.Wf) {s : State c.freqW c.pwrW} (h : Inv c s) {f : Nat}
    {o : OptPlan} (ho : computeOptimalPlan c f s.refFreq.toNat = .ok o) :
    Inv c (commitPlan c o.plan o.actQ o.snap (accept s)) := by
  obtain ⟨⟨hmin, hmax⟩, n, N, hn, hbest, rfl⟩ := (computeOptimalPlan_ok_iff ..).1 ho
  obtain ⟨hn6, hvco, -⟩ := (divExp_ok_iff ..).1 hn
  have hf : 0 < f := lt_of_lt_of_le (by decide) hmin
  obtain ⟨hr, hrmax, hlo, hhi⟩ := isBest_bounds hf hbest
  have hfit := fits_of_target hc ((actual_le hf hr).trans (Nat.mul_le_mul_left 3 hmax))
  refine commitPlan_inv hc h hn6 hlo hhi hr hrmax hfit rfl fun hsnap => ?_
  have hexact := (snapFlag_false_iff ..).1 hsnap
  have hactual : N * s.refFreq.toNat / candidateR c f s.refFreq.toNat N = f := by
    rw [hexact, Nat.mul_div_cancel _ hr]
  simp only [optPlanOf, hactual]
  exact ⟨hexact, hvco⟩

/-! ### The invariant at reset and over every step (R22 to R40) -/

/-- Every instruction keeps the invariant, in each of the ways it can end. -/
theorem execWith_inv {c : Config} (hc : c.Wf) {i : Instr} {s t : State c.freqW c.pwrW} (h : Inv c s)
    (hx : execWith c i s = .next t) : Inv c t := by
  rcases execWith_cases hx with ⟨e, he, rfl⟩ | ⟨hz, r, -, hr, rfl⟩ | ⟨f, o, -, -, rfl⟩ | ⟨f, pl, -, hp, ht⟩ |
    ⟨f, o, -, ho, ht⟩ | ⟨-, rfl⟩
  · exact reject_inv h he
  · exact storeStepsize_inv (accept_inv h) hr
  · exact setResult_inv (accept_inv h) ..
  · exact send_inv (commitGridPlan_inv hc h hp) ht
  · exact send_inv (setResult_inv (commitOptimalPlan_inv hc h ho) ..) ht
  · exact h

theorem stepWith_inv {c : Config} (hc : c.Wf) {s t : State c.freqW c.pwrW} (h : Inv c s)
    (hs : stepWith c s = .next t) : Inv c t := by
  rcases stepWith_cases hs with ⟨-, rfl⟩ | ⟨_, rest, i, -, -, hx⟩ | ⟨_, rest, _, -, -, rfl⟩
  · exact h
  · exact execWith_inv hc (pending_inv h rest) hx
  · exact reject_inv (pending_inv h rest) (by decide)

theorem decided_layout_wf : Config.decided.layout.Wf Config.decided.pwrW := by constructor <;> decide

/-- The decided parameters meet R4 and R91. -/
theorem config_decided_wf : Config.decided.Wf := by
  constructor
  case layout => exact decided_layout_wf
  all_goals decide

theorem resetWith_noPlan (c : Config) : NoPlan (State.resetWith c) := ⟨rfl, rfl, rfl, rfl, rfl, rfl, rfl⟩

theorem resetWith_inv {c : Config} (hc : c.Wf) : Inv c (State.resetWith c) where
  ref_pos := by rw [resetWith_refFreq hc]; exact hc.ref_pos
  step_pos := by rw [resetWith_stepSize hc]; exact hc.step_pos
  step_divides := by rw [resetWith_refFreq hc, resetWith_stepSize hc]; exact hc.step_divides
  step_ratio := by rw [resetWith_refFreq hc, resetWith_stepSize hc]; exact hc.step_ratio
  index := hc.index
  static _ := rfl
  idle := rfl
  kind := rfl
  errIdx := ⟨fun _ => rfl, Nat.zero_le 5⟩
  noPlan _ := resetWith_noPlan c
  plan hv := Bool.noConfusion hv

/-- Settles O51: the step invariant of any well-formed configuration, and with it that of the decided one. -/
theorem everyStepKeepsTheInvariant : Obligations.EveryStepKeepsTheInvariant :=
  ⟨fun _ hc _ _ => stepWith_inv hc,
   fun s _ h hs => stepWith_inv config_decided_wf h ((stepWith_decided s).trans hs)⟩

/-- Settles O50. -/
theorem invariantHoldsAfterReset : Obligations.InvariantHoldsAfterReset :=
  ⟨config_decided_wf, fun _ => resetWith_inv⟩

/-- Settles O12, by evaluating the reset state. -/
theorem resetGivesEveryElementItsValue : Obligations.ResetGivesEveryElementItsValue := by
  unfold Obligations.ResetGivesEveryElementItsValue
  decide

/-! ### Who writes the plan and STEPSIZE (R32, R46) -/

theorem transmit_stepSize {s t : State fw pw} (h : transmit s = .next t) : t.stepSize = s.stepSize := by
  rw [transmit_frame h]

/-- An instruction that does not set the frequency writes STEPSIZE, the result and the error registers at most. -/
theorem exec_frame_of_not_isSet {i : Instr} {s t : State} (h : exec i s = .next t) (hi : ¬ isSet i) :
    t = { s with
      stepSize := t.stepSize, res := t.res, resRem := t.resRem
      errKind := t.errKind, errCause := t.errCause, errIdx := t.errIdx } := by
  rcases exec_cases h with ⟨e, he, rfl⟩ | ⟨hz, r, -, -, rfl⟩ | ⟨f, o, -, -, rfl⟩ | ⟨f, pl, rfl, -, -⟩ |
    ⟨f, o, rfl, -, -⟩ | ⟨-, rfl⟩
  · rw [raise_of_ne_txFail he]
    rfl
  · rfl
  · rfl
  · exact absurd trivial hi
  · exact absurd trivial hi
  · rfl

theorem exec_stepSize {i : Instr} {s t : State} (h : exec i s = .next t) (hi : ∀ hz, i ≠ .setstep hz) :
    t.stepSize = s.stepSize := by
  rcases exec_cases h with ⟨e, -, rfl⟩ | ⟨hz, r, rfl, -, -⟩ | ⟨f, o, -, -, rfl⟩ | ⟨f, pl, -, -, ht⟩ |
    ⟨f, o, -, -, ht⟩ | ⟨-, rfl⟩
  · exact raise_stepSize ..
  · exact absurd rfl (hi hz)
  · rfl
  · rw [transmit_stepSize ht]
    rfl
  · rw [transmit_stepSize ht]
    rfl
  · rfl

/-- Settles O44, from the two frames above. -/
theorem onlyACommitWritesThePlan : Obligations.OnlyACommitWritesThePlan := by
  intro i s t h
  refine ⟨fun hi => ?_, exec_stepSize h, fun hi => ?_⟩
  · rw [exec_frame_of_not_isSet h hi]
    exact ⟨rfl, rfl, rfl, rfl, rfl, rfl, rfl⟩
  · rw [exec_frame_of_not_isSet h hi]

/-! ### No command reads REFSRC (R26)

Each operation commutes with a change of REFSRC. -/

/-- REFSRC set from outside. -/
def setRefSrc (x : RefSource) (s : State fw pw) : State fw pw := { s with refSrc := x }

@[simp] theorem setRefSrc_stepSize (x : RefSource) (s : State fw pw) : (setRefSrc x s).stepSize = s.stepSize := rfl
@[simp] theorem setRefSrc_refFreq (x : RefSource) (s : State fw pw) : (setRefSrc x s).refFreq = s.refFreq := rfl
@[simp] theorem setRefSrc_regs (x : RefSource) (s : State fw pw) : (setRefSrc x s).regs = s.regs := rfl
@[simp] theorem setRefSrc_replies (x : RefSource) (s : State fw pw) : (setRefSrc x s).replies = s.replies := rfl

@[simp] theorem accept_setRefSrc (x : RefSource) (s : State fw pw) :
    accept (setRefSrc x s) = setRefSrc x (accept s) := rfl

@[simp] theorem raise_setRefSrc (e : Cause) (x : RefSource) (s : State fw pw) :
    raise e (setRefSrc x s) = setRefSrc x (raise e s) := by
  cases e <;> rfl

@[simp] theorem setResult_setRefSrc (q m : Nat) (x : RefSource) (s : State fw pw) :
    setResult q m (setRefSrc x s) = setRefSrc x (setResult q m s) := rfl

@[simp] theorem commitPlan_setRefSrc (c : Config) (pl : Plan) (fo : Nat) (sn : Bool) (x : RefSource)
    (s : State fw pw) : commitPlan c pl fo sn (setRefSrc x s) = setRefSrc x (commitPlan c pl fo sn s) := rfl

theorem takeAnswer_setRefSrc (x : RefSource) (s : State fw pw) :
    takeAnswer (setRefSrc x s) = Prod.map id (setRefSrc x) (takeAnswer s) := by
  simp only [takeAnswer, setRefSrc_replies]
  split <;> rfl

theorem txWrite_setRefSrc (i : WordIndex) (v : Word) (x : RefSource) (s : State fw pw) :
    txWrite i v (setRefSrc x s) = Prod.map id (setRefSrc x) (txWrite i v s) := by
  have h := takeAnswer_setRefSrc x { s with txi := BitVec.ofNat 3 i }
  simp only [setRefSrc] at h
  simp only [txWrite, setRefSrc, h]
  rfl

theorem writeAll_setRefSrc (ws : List (WordIndex × Word)) (x : RefSource) (s : State fw pw) :
    writeAll ws (setRefSrc x s) = setRefSrc x (writeAll ws s) := by
  induction ws generalizing s with
  | nil => rfl
  | cons p ws ih =>
    obtain ⟨i, v⟩ := p
    rw [writeAll, writeAll, txWrite_setRefSrc]
    rcases txWrite i v s with ⟨_ | _, s1⟩
    · exact ih s1
    · exact raise_setRefSrc ..

@[simp] theorem transmit_setRefSrc (x : RefSource) (s : State) :
    transmit (setRefSrc x s) = mapNext (setRefSrc x) (transmit s) := by
  simp only [transmit, send, setRefSrc_regs, setRefSrc_replies, writeAll_setRefSrc]
  split <;> rfl

theorem setFrequency_setRefSrc (c : Config) (f : Nat) (x : RefSource) (s : State) :
    setFrequency c f (setRefSrc x s) = mapNext (setRefSrc x) (setFrequency c f s) := by
  simp only [setFrequency, accept_setRefSrc, setRefSrc_stepSize, setRefSrc_refFreq]
  cases computeGridPlan c f (accept s).stepSize.toNat (accept s).refFreq.toNat with
  | error e => simp [mapNext]
  | ok pl => simp

theorem setFrequencyOptimally_setRefSrc (c : Config) (f : Nat) (x : RefSource) (s : State) :
    setFrequencyOptimally c f (setRefSrc x s) = mapNext (setRefSrc x) (setFrequencyOptimally c f s) := by
  simp only [setFrequencyOptimally, accept_setRefSrc, setRefSrc_refFreq]
  cases computeOptimalPlan c f (accept s).refFreq.toNat with
  | error e => simp [mapNext]
  | ok o => simp

theorem setStepsize_setRefSrc (hz : Nat) (x : RefSource) (s : State) :
    setStepsize hz (setRefSrc x s) = mapNext (setRefSrc x) (setStepsize hz s) := by
  simp only [setStepsize, accept_setRefSrc, setRefSrc_refFreq]
  cases ratioCheck hz (accept s).refFreq.toNat with
  | error e => simp [mapNext]
  | ok r => rfl

theorem getOptimalStepsize_setRefSrc (c : Config) (f : Nat) (x : RefSource) (s : State) :
    getOptimalStepsize c f (setRefSrc x s) = mapNext (setRefSrc x) (getOptimalStepsize c f s) := by
  simp only [getOptimalStepsize, accept_setRefSrc, setRefSrc_refFreq]
  cases computeOptimalPlan c f (accept s).refFreq.toNat with
  | error e => simp [mapNext]
  | ok o => simp [mapNext]

/-- Settles O14: each command commutes with a change of REFSRC, and a configuration word that is read changes nothing. -/
theorem referenceSourceIsNeverRead : Obligations.ReferenceSourceIsNeverRead := by
  intro i s x
  cases i with
  | setf f => exact setFrequency_setRefSrc _ f x s
  | setfopt f => exact setFrequencyOptimally_setRefSrc _ f x s
  | setstep hz => exact setStepsize_setRefSrc hz x s
  | getoptstep f => exact getOptimalStepsize_setRefSrc _ f x s
  | cfg0 _ | cfg1 _ | cfg2 _ | cfg3 _ | cfg4 _ | cfg5 _ => rfl

end Sys2Proof.Proofs

/-! PROOFS. The statements of 20_memory.md: the bytes of a transport write (R62), the command port (R72), the order of
TXLOG (R68, R69), and what the writes do at the chip (R66). -/

namespace Sys2Proof.Proofs

open Sys2Proof Sys2Proof.Machine Sys2Proof.Laws Sys2Proof.Stated

variable {fw pw : Nat}

/-! ### The bytes of a word (R62) -/

theorem toNat_eq_sum_of_bytes (w : Word) :
    w.toNat = (slice w 24 8).toNat * 2 ^ 24 + (slice w 16 8).toNat * 2 ^ 16 + (slice w 8 8).toNat * 2 ^ 8 +
      (slice w 0 8).toNat := by
  have hw := w.isLt
  simp only [toNat_slice]
  omega

@[simp] theorem length_wordBytes (w : Word) : (wordBytes w).length = 4 := rfl

@[simp] theorem bytesToNat_wordBytes (w : Word) : bytesToNat (wordBytes w) = w.toNat := by
  rw [toNat_eq_sum_of_bytes w]
  simp only [bytesToNat, wordBytes, List.foldl_cons, List.foldl_nil]
  ring

@[simp] theorem frameOfBytes_wordBytes (w : Word) : frameOfBytes (wordBytes w) = .ok (.config w) := by
  rw [frameOfBytes, if_pos (length_wordBytes w), bytesToNat_wordBytes, BitVec.ofNat_toNat, BitVec.setWidth_eq]

theorem decodeBytes_wordBytes (w : Word) : decodeBytes (wordBytes w) = decode (.config w) := by
  simp only [decodeBytes, frameOfBytes_wordBytes]

/-- Settles O7: the bytes are the four slices of the word, and the frame they are read as is the word. -/
theorem transportBytesAreBigEndian : Obligations.TransportBytesAreBigEndian := fun w =>
  ⟨_, _, _, _, rfl, toNat_eq_sum_of_bytes w, decodeBytes_wordBytes w⟩

/-! ### The command port (R72, R249) -/

/-- Settles O8: `step` is the step under the decided parameters, which runs what the first frame decodes to. -/
theorem stepRunsTheDecodedInstruction : Obligations.StepRunsTheDecodedInstruction := by
  intro s fr rest i hp hd
  rw [← stepWith_decided, ← execWith_decided]
  exact stepWith_of_decode Config.decided hp hd

theorem transmit_pending {s t : State fw pw} (h : transmit s = .next t) : t.pending = s.pending := by
  rw [transmit_frame h]

/-- No instruction reads or takes a presented frame. -/
theorem exec_pending {i : Instr} {s t : State} (h : exec i s = .next t) : t.pending = s.pending := by
  rcases exec_cases h with ⟨e, -, rfl⟩ | ⟨hz, r, -, -, rfl⟩ | ⟨f, o, -, -, rfl⟩ | ⟨f, pl, -, -, ht⟩ |
    ⟨f, o, -, -, ht⟩ | ⟨-, rfl⟩
  · exact raise_pending ..
  · rfl
  · rfl
  · rw [transmit_pending ht]
    rfl
  · rw [transmit_pending ht]
    rfl
  · rfl

/-- Settles O11: a step waits, or it takes the first frame and runs it, or rejects it. -/
theorem stepTakesOneFrame : Obligations.StepTakesOneFrame := by
  intro s t h
  rcases step_cases h with ⟨hp, rfl⟩ | ⟨fr, rest, i, hp, -, hx⟩ | ⟨fr, rest, e, hp, -, rfl⟩
  · rw [hp, List.tail_nil]
  · rw [exec_pending hx, hp, List.tail_cons]
  · rw [execIllegal, raise_pending, accept_pending, hp, List.tail_cons]

/-! ### What an instruction adds to TXLOG (R68, R69) -/

theorem not_isSet_of_encode_config {i : Instr} {w : Word} (h : encode i = .config w) : ¬ isSet i := by
  cases i with
  | setf _ | setfopt _ | setstep _ | getoptstep _ => cases h
  | cfg0 _ | cfg1 _ | cfg2 _ | cfg3 _ | cfg4 _ | cfg5 _ => exact id

/-- An instruction leaves TXLOG as it was, and is then no frequency-set command or was rejected, or it ends with a
transmit step, TXLOG being as it was until then. -/
theorem exec_keeps_txLog_or_transmits {i : Instr} {s t : State} (h : exec i s = .next t) :
    (t.txLog = s.txLog ∧ (isSet i → ∃ e, e ≠ .txFail ∧ t = raise e (accept s))) ∨
      ∃ u, transmit u = .next t ∧ u.txLog = s.txLog := by
  rcases exec_cases h with ⟨e, he, rfl⟩ | ⟨hz, r, rfl, -, rfl⟩ | ⟨f, o, rfl, -, rfl⟩ | ⟨f, pl, -, -, ht⟩ |
    ⟨f, o, -, -, ht⟩ | ⟨⟨w, hw⟩, rfl⟩
  · exact .inl ⟨raise_txLog .., fun _ => ⟨e, he, rfl⟩⟩
  · exact .inl ⟨rfl, False.elim⟩
  · exact .inl ⟨rfl, False.elim⟩
  · exact .inr ⟨_, ht, rfl⟩
  · exact .inr ⟨_, ht, rfl⟩
  · exact .inl ⟨rfl, fun hi => absurd hi (not_isSet_of_encode_config hw)⟩

/-- A transmit step sends the six words of REGS, all answered `ok`, or the first of them up to a failed write, and ends
with HardwareError then. -/
theorem transmit_txLog {s t : State fw pw} (h : transmit s = .next t) :
    t.txLog = s.txLog ++ okLog (writesOf t.regs) ∨
    ∃ (pre post : List (WordIndex × Word)) (j : WordIndex) (v : Word),
      writesOf t.regs = pre ++ (j, v) :: post ∧
      t.txLog = s.txLog ++ okLog pre ++ [⟨j, v, .fail⟩] ∧ t.errKind = some .hardwareError ∧
      t.errIdx = BitVec.ofNat 3 j := by
  rcases send_cases h with ⟨rs, d, rfl⟩ | ⟨pre, j, v, post, rs, d, hws, rfl⟩
  · exact .inl rfl
  · exact .inr ⟨pre, post, j, v, hws, rfl, rfl, rfl⟩

/-- Settles O46: only a transmit step adds to TXLOG. -/
theorem commandLogIsOrdered : Obligations.CommandLogIsOrdered := by
  intro i s t h
  rcases exec_keeps_txLog_or_transmits h with ⟨hlog, -⟩ | ⟨u, ht, hu⟩
  · exact .inl hlog
  · rw [← hu]
    exact .inr (transmit_txLog ht)

/-! ### What the writes do at the chip (R66) -/

/-- Writing a vector at every index, from 5 down to 0, replaces all that was there. -/
theorem vector_set_all {α : Type} (old new : Vector α 6) :
    (((((old.set 5 new[5]).set 4 new[4]).set 3 new[3]).set 2 new[2]).set 1 new[1]).set 0 new[0] = new := by
  ext k hk
  interval_cases k <;> simp

/-- After the six words arrived the chip holds them, word 0 being the last has latched them, and no doubt is left. -/
theorem foldl_absorb_okLog_writesOf (ch : Chip) (regs : Vector Word 6) :
    (okLog (writesOf regs)).foldl Chip.absorb ch =
      { held := regs.map some, effective := some (regs.map some), inDoubt := false } := by
  have held := vector_set_all ch.held (regs.map some)
  simp only [Vector.getElem_map] at held
  simp [okLog, writesOf, Chip.absorb, held]

/-- A frequency-set command that returns Ok has sent the six words. -/
theorem exec_txLog_of_ok {i : Instr} {s t : State} (hi : isSet i) (h : exec i s = .next t) (hk : t.errKind = none) :
    t.txLog = s.txLog ++ okLog (writesOf t.regs) := by
  rcases exec_keeps_txLog_or_transmits h with ⟨-, rejected⟩ | ⟨u, ht, hu⟩
  · obtain ⟨e, -, rfl⟩ := rejected hi
    cases (raise_errKind _ e).symm.trans hk
  · rcases transmit_txLog ht with hlog | ⟨pre, post, j, v, -, -, hfail, -⟩
    · rw [hlog, hu]
    · cases hfail.symm.trans hk

/-- Settles O47: the six words arrive after whatever arrived before. -/
theorem successfulSetTakesEffectAtTheChip : Obligations.SuccessfulSetTakesEffectAtTheChip := by
  intro i s t arrived hi h hk hd
  obtain rfl : arrived = t.txLog := hd
  rw [exec_txLog_of_ok hi h hk, chipAfter_append, foldl_absorb_okLog_writesOf]
  exact ⟨rfl, rfl⟩

/-! ### A configuration word on its own (R60, R101) -/

theorem exec_of_encode_config {x : Instr} {w : Word} (h : encode x = .config w) (s : State) : exec x s = .next s := by
  cases x with
  | setf _ | setfopt _ | setstep _ | getoptstep _ => cases h
  | cfg0 _ | cfg1 _ | cfg2 _ | cfg3 _ | cfg4 _ | cfg5 _ => exact readWord_eq s

theorem absorb_ok_effective (ch : Chip) (i : WordIndex) (w : Word) :
    (ch.absorb ⟨i, w, .ok⟩).effective = if i = 0 then some (ch.absorb ⟨i, w, .ok⟩).held else ch.effective := by
  split
  next hi =>
    subst hi
    rw [absorb_latch, absorb_ok_held]
    rfl
  next hi => exact absorb_effective ch _ (.inr hi)

/-- Settles O52: the block reads the word, and the chip holds it at its index and latches at index 0. -/
theorem configWordActsAtTheChipAlone : Obligations.ConfigWordActsAtTheChipAlone := by
  intro s x w i he _
  refine ⟨exec_of_encode_config he s, fun ch => ⟨?_, fun j hj => ?_, absorb_ok_effective ch i w⟩⟩
  · rw [absorb_ok_held]
    exact Vector.getElem_set_self ..
  · rw [absorb_ok_held]
    exact Vector.getElem_set_ne _ _ fun hij => hj (Fin.ext hij.symm)

end Sys2Proof.Proofs

/-! PROOFS. The statements of 30_encoding.md: the decoder and the encoder undo each other (R80, R90, R101), the opcode
map and the illegal opcodes (R81 to R83), the layout of the configuration words (R92 to R97), the opcode table (R101), and
the fields of the words that a commit leaves in REGS (R98). -/

namespace Sys2Proof.Proofs

open Sys2Proof Sys2Proof.Machine Sys2Proof.Laws Sys2Proof.Stated

/-! ### What the decoder reads (R81, R83, R90) -/

/-- A command word with a fitting operand is told by its opcode alone. -/
theorem decode_commandWord (opc : BitVec 8) {arg : Nat} (h : arg < 2 ^ argW) :
    decode (.command (commandWord opc arg)) =
      if opc = 1 then .ok (.setf arg)
      else if opc = 2 then .ok (.setfopt arg)
      else if opc = 3 then .ok (.setstep arg)
      else if opc = 4 then .ok (.getoptstep arg)
      else .error (.badOpcode opc) := by
  simp only [decode, decodeCommand, opcodeOf_commandWord, argOf_commandWord opc h]

theorem decode_of_index_zero {w : Word} (h : slice w 0 3 = 0#3) : decode (.config w) = .ok (.cfg0 (cfg0Of w)) := by
  simp [decode, decodeConfig, h]

theorem decode_of_index_one {w : Word} (h : slice w 0 3 = 1#3) : decode (.config w) = .ok (.cfg1 (cfg1Of w)) := by
  simp [decode, decodeConfig, h]

theorem decode_of_index_two {w : Word} (h : slice w 0 3 = 2#3) : decode (.config w) = .ok (.cfg2 (cfg2Of w)) := by
  simp [decode, decodeConfig, h]

theorem decode_of_index_three {w : Word} (h : slice w 0 3 = 3#3) : decode (.config w) = .ok (.cfg3 (cfg3Of w)) := by
  simp [decode, decodeConfig, h]

theorem decode_of_index_four {w : Word} (h : slice w 0 3 = 4#3) : decode (.config w) = .ok (.cfg4 (cfg4Of w)) := by
  simp [decode, decodeConfig, h]

theorem decode_of_index_five {w : Word} (h : slice w 0 3 = 5#3) : decode (.config w) = .ok (.cfg5 (cfg5Of w)) := by
  simp [decode, decodeConfig, h]

/-- Everything the decoder answers on a command word. -/
theorem decode_command_cases (cw : CommandWord) :
    (opcodeOf cw = 1 ∧ decode (.command cw) = .ok (.setf (argOf cw))) ∨
    (opcodeOf cw = 2 ∧ decode (.command cw) = .ok (.setfopt (argOf cw))) ∨
    (opcodeOf cw = 3 ∧ decode (.command cw) = .ok (.setstep (argOf cw))) ∨
    (opcodeOf cw = 4 ∧ decode (.command cw) = .ok (.getoptstep (argOf cw))) ∨
    ((opcodeOf cw ≠ 1 ∧ opcodeOf cw ≠ 2 ∧ opcodeOf cw ≠ 3 ∧ opcodeOf cw ≠ 4) ∧
      decode (.command cw) = .error (.badOpcode (opcodeOf cw))) := by
  simp only [decode, decodeCommand]
  split_ifs with h1 h2 h3 h4
  · exact .inl ⟨h1, rfl⟩
  · exact .inr (.inl ⟨h2, rfl⟩)
  · exact .inr (.inr (.inl ⟨h3, rfl⟩))
  · exact .inr (.inr (.inr (.inl ⟨h4, rfl⟩)))
  · exact .inr (.inr (.inr (.inr ⟨⟨h1, h2, h3, h4⟩, rfl⟩)))

/-- Everything the decoder answers on a configuration word. -/
theorem decode_config_cases (w : Word) :
    (slice w 0 3 = 0#3 ∧ decode (.config w) = .ok (.cfg0 (cfg0Of w))) ∨
    (slice w 0 3 = 1#3 ∧ decode (.config w) = .ok (.cfg1 (cfg1Of w))) ∨
    (slice w 0 3 = 2#3 ∧ decode (.config w) = .ok (.cfg2 (cfg2Of w))) ∨
    (slice w 0 3 = 3#3 ∧ decode (.config w) = .ok (.cfg3 (cfg3Of w))) ∨
    (slice w 0 3 = 4#3 ∧ decode (.config w) = .ok (.cfg4 (cfg4Of w))) ∨
    (slice w 0 3 = 5#3 ∧ decode (.config w) = .ok (.cfg5 (cfg5Of w))) ∨
    (5 < (slice w 0 3).toNat ∧ decode (.config w) = .error (.badIndex (slice w 0 3))) := by
  have index : ∀ x : BitVec 3, x = 0 ∨ x = 1 ∨ x = 2 ∨ x = 3 ∨ x = 4 ∨ x = 5 ∨ x = 6 ∨ x = 7 := by decide
  rcases index (slice w 0 3) with h | h | h | h | h | h | h | h
  · exact .inl ⟨h, decode_of_index_zero h⟩
  · exact .inr (.inl ⟨h, decode_of_index_one h⟩)
  · exact .inr (.inr (.inl ⟨h, decode_of_index_two h⟩))
  · exact .inr (.inr (.inr (.inl ⟨h, decode_of_index_three h⟩)))
  · exact .inr (.inr (.inr (.inr (.inl ⟨h, decode_of_index_four h⟩))))
  · exact .inr (.inr (.inr (.inr (.inr (.inl ⟨h, decode_of_index_five h⟩)))))
  · simp [decode, decodeConfig, h]
  · simp [decode, decodeConfig, h]

/-! ### Decode of encode, and encode of decode (R80, R90, R101) -/

/-- Settles O1, one constructor at a time: the opcode or the index bits of the encoding choose the row, and each of its
fields is read where it was written. -/
theorem everyWellFormedInstructionDecodesBack : Obligations.EveryWellFormedInstructionDecodesBack := by
  intro i hi
  cases i with
  | setf f => exact decode_commandWord 1 (of_decide_eq_true hi)
  | setfopt f => exact decode_commandWord 2 (of_decide_eq_true hi)
  | setstep hz => exact decode_commandWord 3 (of_decide_eq_true hi)
  | getoptstep f => exact decode_commandWord 4 (of_decide_eq_true hi)
  | cfg0 c => rw [encode, decode_of_index_zero (slice_cfg0_word c), cfg0Of_word]
  | cfg1 c => rw [encode, decode_of_index_one (slice_cfg1_word c), cfg1Of_word]
  | cfg2 c => rw [encode, decode_of_index_two (slice_cfg2_word c), cfg2Of_word]
  | cfg3 c => rw [encode, decode_of_index_three (slice_cfg3_word c), cfg3Of_word]
  | cfg4 c => rw [encode, decode_of_index_four (slice_cfg4_word c), cfg4Of_word]
  | cfg5 c => rw [encode, decode_of_index_five (slice_cfg5_word c), cfg5Of_word]

theorem commandWord_of_opcode {cw : CommandWord} {opc : BitVec 8} (h : opcodeOf cw = opc) :
    commandWord opc (argOf cw) = cw := by
  rw [← h, commandWord_of]

theorem encode_of_decode_command {cw : CommandWord} {i : Instr} (h : decode (.command cw) = .ok i) :
    encode i = .command cw ∧ i.wf = true := by
  have hw := decide_eq_true (argOf_lt cw)
  rcases decode_command_cases cw with ⟨ho, hd⟩ | ⟨ho, hd⟩ | ⟨ho, hd⟩ | ⟨ho, hd⟩ | ⟨-, hd⟩ <;>
    cases hd.symm.trans h <;>
    exact ⟨congrArg Frame.command (commandWord_of_opcode ho), hw⟩

theorem encode_of_decode_config {w : Word} {i : Instr} (h : decode (.config w) = .ok i) :
    encode i = .config w ∧ i.wf = true := by
  rcases decode_config_cases w with ⟨hx, hd⟩ | ⟨hx, hd⟩ | ⟨hx, hd⟩ | ⟨hx, hd⟩ | ⟨hx, hd⟩ | ⟨hx, hd⟩ | ⟨-, hd⟩ <;>
    cases hd.symm.trans h
  · exact ⟨congrArg Frame.config (cfg0_word_of w hx), rfl⟩
  · exact ⟨congrArg Frame.config (cfg1_word_of w hx), rfl⟩
  · exact ⟨congrArg Frame.config (cfg2_word_of w hx), rfl⟩
  · exact ⟨congrArg Frame.config (cfg3_word_of w hx), rfl⟩
  · exact ⟨congrArg Frame.config (cfg4_word_of w hx), rfl⟩
  · exact ⟨congrArg Frame.config (cfg5_word_of w hx), rfl⟩

/-- Settles O2: for each row the fields that the decoder reads make up the frame again. -/
theorem everyDecodedFrameEncodesBack : Obligations.EveryDecodedFrameEncodesBack := fun fr _ h =>
  match fr with
  | .command _ => encode_of_decode_command h
  | .config _ => encode_of_decode_config h

/-! ### Command words as numbers (R81 to R83) -/

theorem toNat_opcodeOf (cw : CommandWord) : (opcodeOf cw).toNat = cw.toNat / 2 ^ 64 := by
  have hcw := cw.isLt
  rw [opcodeOf, toNat_slice]
  omega

theorem argOf_eq_mod (cw : CommandWord) : argOf cw = cw.toNat % 2 ^ 64 := by
  rw [argOf, toNat_slice, Nat.pow_zero, Nat.div_one]

theorem opcodeOf_eq_iff (cw : CommandWord) (opc : BitVec 8) : opcodeOf cw = opc ↔ cw.toNat / 2 ^ 64 = opc.toNat := by
  rw [← BitVec.toNat_inj, toNat_opcodeOf]

theorem opcodeOf_eq_ofNat (cw : CommandWord) : opcodeOf cw = BitVec.ofNat 8 (cw.toNat / 2 ^ 64) := by
  rw [← toNat_opcodeOf, BitVec.ofNat_toNat, BitVec.setWidth_eq]

/-- Settles O3: the two fields of the word are its quotient and its remainder by 2^64. -/
theorem commandWordDecodesByOpcode : Obligations.CommandWordDecodesByOpcode := by
  intro cw
  simp only [decode, decodeCommand, opcodeOf_eq_iff, argOf_eq_mod, ← opcodeOf_eq_ofNat]
  rfl

/-! ### The fields of a configuration word as numbers (R92 to R97) -/

theorem index_of_mod_eight {w : Word} {k : Nat} (h : w.toNat % 8 = k) : slice w 0 3 = BitVec.ofNat 3 k := by
  apply BitVec.eq_of_toNat_eq
  rw [toNat_slice, BitVec.toNat_ofNat]
  omega

/-- Settles O4: the word is the encoding of its fields, and that is the sum. -/
theorem configWordIsTheSumOfItsFields : Obligations.ConfigWordIsTheSumOfItsFields := by
  intro w
  refine ⟨fun h => ?_, fun h => ?_, fun h => ?_, fun h => ?_, fun h => ?_, fun h => ?_⟩ <;>
    replace h := index_of_mod_eight h
  · exact ⟨_, decode_of_index_zero h, by rw [← Cfg0.toNat_word, cfg0_word_of w h]⟩
  · exact ⟨_, decode_of_index_one h, by rw [← Cfg1.toNat_word, cfg1_word_of w h]⟩
  · exact ⟨_, decode_of_index_two h, by rw [← Cfg2.toNat_word, cfg2_word_of w h]⟩
  · exact ⟨_, decode_of_index_three h, by rw [← Cfg3.toNat_word, cfg3_word_of w h]⟩
  · exact ⟨_, decode_of_index_four h, by rw [← Cfg4.toNat_word, cfg4_word_of w h]⟩
  · exact ⟨_, decode_of_index_five h, by rw [← Cfg5.toNat_word, cfg5_word_of w h]⟩

/-! ### The opcode table (R101) -/

/-- The rows of a width with the given bits. -/
def rowsWithBits (width bits : Nat) : List OpRow :=
  opcodeTable.filter fun r => r.width = width && decide (bits = r.bits)

theorem mask_of_command_row : ∀ r ∈ opcodeTable, r.width = 72 → r.mask = (2 ^ 8 - 1) * 2 ^ 64 := by decide

theorem mask_of_config_row : ∀ r ∈ opcodeTable, r.width = 32 → r.mask = 2 ^ 3 - 1 := by decide

theorem toNat_and_opcode_mask (cw : CommandWord) :
    cw.toNat &&& (2 ^ 8 - 1) * 2 ^ 64 = (opcodeOf cw).toNat * 2 ^ 64 := by
  have high : (cw.toNat &&& (2 ^ 8 - 1) * 2 ^ 64) / 2 ^ 64 = (opcodeOf cw).toNat := by
    rw [Nat.and_div_two_pow, Nat.mul_div_cancel _ (by decide), Nat.and_two_pow_sub_one_eq_mod, ← toNat_opcodeOf,
      Nat.mod_eq_of_lt (opcodeOf cw).isLt]
  have low : (cw.toNat &&& (2 ^ 8 - 1) * 2 ^ 64) % 2 ^ 64 = 0 := by
    rw [Nat.and_mod_two_pow, Nat.mul_mod_left, Nat.and_zero]
  rw [← high, Nat.div_mul_cancel (Nat.dvd_of_mod_eq_zero low)]

theorem toNat_and_index_mask (w : Word) : w.toNat &&& 2 ^ 3 - 1 = (slice w 0 3).toNat := by
  rw [Nat.and_two_pow_sub_one_eq_mod, toNat_slice, Nat.pow_zero, Nat.div_one]

theorem rowsOf_command (cw : CommandWord) : rowsOf (.command cw) = rowsWithBits 72 ((opcodeOf cw).toNat * 2 ^ 64) := by
  refine List.filter_congr fun r hr => ?_
  by_cases hw : r.width = 72
  · rw [mask_of_command_row r hr hw, toNat_and_opcode_mask]
  · simp [hw]

theorem rowsOf_config (w : Word) : rowsOf (.config w) = rowsWithBits 32 (slice w 0 3).toNat := by
  refine List.filter_congr fun r hr => ?_
  by_cases hw : r.width = 32
  · rw [mask_of_config_row r hr hw, toNat_and_index_mask]
  · simp [hw]

/-- The encoding of an instruction matches its own row alone. -/
theorem rowsOf_encode (i : Instr) : (rowsOf (encode i)).map OpRow.mnemonic = [i.mnemonic] := by
  cases i with
  | setf _ | setfopt _ | setstep _ | getoptstep _ =>
    rw [encode, rowsOf_command, opcodeOf_commandWord]
    rfl
  | cfg0 c => rw [encode, rowsOf_config, slice_cfg0_word]; rfl
  | cfg1 c => rw [encode, rowsOf_config, slice_cfg1_word]; rfl
  | cfg2 c => rw [encode, rowsOf_config, slice_cfg2_word]; rfl
  | cfg3 c => rw [encode, rowsOf_config, slice_cfg3_word]; rfl
  | cfg4 c => rw [encode, rowsOf_config, slice_cfg4_word]; rfl
  | cfg5 c => rw [encode, rowsOf_config, slice_cfg5_word]; rfl

theorem rowsWithBits_of_other_opcode {opc : BitVec 8} (h : opc ≠ 1 ∧ opc ≠ 2 ∧ opc ≠ 3 ∧ opc ≠ 4) :
    rowsWithBits 72 (opc.toNat * 2 ^ 64) = [] := by
  simp [rowsWithBits, opcodeTable]
  bv_omega

theorem rowsWithBits_of_other_index {k : Nat} (h : 5 < k) : rowsWithBits 32 k = [] := by
  simp [rowsWithBits, opcodeTable]
  omega

/-- A frame that the decoder rejects matches no row. -/
theorem rowsOf_of_decode_error {fr : Frame} {e : DecodeError} (h : decode fr = .error e) : rowsOf fr = [] := by
  cases fr with
  | command cw =>
    rcases decode_command_cases cw with ⟨-, hd⟩ | ⟨-, hd⟩ | ⟨-, hd⟩ | ⟨-, hd⟩ | ⟨hopc, -⟩
    case inr.inr.inr.inr => rw [rowsOf_command, rowsWithBits_of_other_opcode hopc]
    all_goals cases hd.symm.trans h
  | config w =>
    rcases decode_config_cases w with ⟨-, hd⟩ | ⟨-, hd⟩ | ⟨-, hd⟩ | ⟨-, hd⟩ | ⟨-, hd⟩ | ⟨-, hd⟩ | ⟨hx, -⟩
    case inr.inr.inr.inr.inr.inr => rw [rowsOf_config, rowsWithBits_of_other_index hx]
    all_goals cases hd.symm.trans h

/-- Settles O5: an accepted frame is the encoding of what it decodes to (O2), and a rejected one matches no row. -/
theorem decoderAgreesWithOpcodeTable : Obligations.DecoderAgreesWithOpcodeTable := by
  intro fr
  cases hd : decode fr with
  | ok i =>
    obtain ⟨rfl, -⟩ := everyDecodedFrameEncodesBack fr i hd
    exact rowsOf_encode i
  | error e => rw [rowsOf_of_decode_error hd, List.map_nil]

/-! ### An illegal command (R83, R197) -/

theorem step_of_decode_error {s : State} {fr : Frame} {rest : List Frame} {e : DecodeError}
    (hp : s.pending = fr :: rest) (hd : decode fr = .error e) :
    step s = execRejected e { s with pending := rest } := by
  simp only [step, fetch_cons s hp, hd]

theorem decode_of_illegal_opcode {cw : CommandWord} (h : cw.toNat / 2 ^ 64 = 0 ∨ 5 ≤ cw.toNat / 2 ^ 64) :
    decode (.command cw) = .error (.badOpcode (BitVec.ofNat 8 (cw.toNat / 2 ^ 64))) := by
  rw [commandWordDecodesByOpcode cw, if_neg (by omega), if_neg (by omega), if_neg (by omega), if_neg (by omega)]

/-- Settles O10: the word is rejected by the decoder, so the step accepts it and raises BAD_OPCODE. -/
theorem illegalCommandChangesOnlyTheErrorRegisters : Obligations.IllegalCommandChangesOnlyTheErrorRegisters := by
  intro s cw rest hp hopc
  rw [step_of_decode_error hp (decode_of_illegal_opcode hopc), execRejected, execIllegal,
    raise_of_ne_txFail (by decide)]
  rfl

/-! ### What a frequency-set command commits (R190, R191) -/

/-- The values of a plan fit the plan registers and the fields of the words. -/
def PlanFits (pl : Plan) : Prop := pl.n ≤ Const.divExpMax ∧ pl.int ≤ Const.intMax ∧ pl.r ≤ Const.rMax

theorem gridPlan_fits {c : Config} {f step ref : Nat} {pl : Plan} (h : computeGridPlan c f step ref = .ok pl) :
    PlanFits pl := by
  obtain ⟨-, hn, -, hr, hint⟩ := (computeGridPlan_ok_iff ..).1 h
  obtain ⟨hn, -⟩ := (divExp_ok_iff ..).1 hn
  obtain ⟨-, -, hrmax, hr⟩ := (ratioCheck_ok_iff ..).1 hr
  obtain ⟨-, -, hmax, hint⟩ := (gridCheck_ok_iff ..).1 hint
  exact ⟨hn, hint ▸ hmax, hr ▸ hrmax⟩

theorem optimalPlan_fits {c : Config} {f ref : Nat} {o : OptPlan} (h : computeOptimalPlan c f ref = .ok o) :
    PlanFits o.plan := by
  obtain ⟨⟨hmin, -⟩, n, N, hn, hbest, rfl⟩ := (computeOptimalPlan_ok_iff ..).1 h
  obtain ⟨hn, -⟩ := (divExp_ok_iff ..).1 hn
  obtain ⟨-, hr, -, hint⟩ := isBest_bounds (lt_of_lt_of_le (by decide) hmin) hbest
  exact ⟨hn, hint, hr⟩

/-- A frequency-set command that ends without error or with HardwareError has committed a plan that fits; after the commit
only the result and the error registers and the account of the writes change. -/
theorem exec_set_commits {i : Instr} {s t : State} (hi : isSet i) (h : exec i s = .next t)
    (hk : t.errKind = none ∨ t.errKind = some .hardwareError) :
    ∃ pl fo sn, PlanFits pl ∧ t = { commitPlan Config.decided pl fo sn (accept s) with
      res := t.res, resRem := t.resRem, errKind := t.errKind, errCause := t.errCause, errIdx := t.errIdx
      txi := t.txi, txLog := t.txLog, replies := t.replies, freeDraws := t.freeDraws } := by
  rcases exec_cases h with ⟨e, he, rfl⟩ | ⟨hz, r, rfl, -, -⟩ | ⟨f, o, rfl, -, -⟩ | ⟨f, pl, -, hp, ht⟩ |
    ⟨f, o, -, ho, ht⟩ | ⟨⟨w, hw⟩, -⟩
  · simp [kind_eq_hardwareError_iff, he] at hk
  · exact hi.elim
  · exact hi.elim
  · refine ⟨pl, f, false, gridPlan_fits hp, ?_⟩
    rw [transmit_frame ht]
  · refine ⟨o.plan, o.actQ, o.snap, optimalPlan_fits ho, ?_⟩
    rw [transmit_frame ht]
    rfl
  · exact absurd hi (not_isSet_of_encode_config hw)

theorem bandSelect_le (c : Config) (ref r : Nat) : (bandSelect c ref r).1 ≤ Const.bsMax := by
  simp only [bandSelect]
  split_ifs <;> simp only [Const.bsMin, Const.bsMax] at * <;> omega

/-! ### The fields of the committed words (R92 to R98) -/

/-- A field of the encoded words, read as the decoder reads it, holds the value that was inserted. -/
theorem slice_encodeWords (pl : Plan) (bs : Nat) (en : Bool) (pw : BitVec 2) (old : Vector Word 6) (f : BitField)
    {v : Nat} (hf : (f, v) ∈ inserts Config.decided pl bs en pw.toNat) (hv : v < 2 ^ f.width) :
    slice (encodeWords Config.decided pl bs en pw.toNat old)[f.word] f.lo f.width = BitVec.ofNat f.width v := by
  apply BitVec.eq_of_toNat_eq
  rw [toNat_slice, encodeWords_field decided_layout_wf pl bs en pw.toNat old hf hv, toNat_ofNat_of_lt hv]

theorem slice_encodeWords_index (pl : Plan) (bs : Nat) (en : Bool) (pw : BitVec 2) {old : Vector Word 6}
    (hold : ∀ j : WordIndex, (old[j]).toNat % 8 = j) (j : WordIndex) :
    slice (encodeWords Config.decided pl bs en pw.toNat old)[j] 0 3 = BitVec.ofNat 3 j :=
  (encodeWords_index decided_layout_wf ..).trans (index_of_mod_eight (hold j))

theorem prescCode_lt (p : Prescaler) : prescCode p < 2 ^ 1 := by cases p <;> decide

theorem enableCode_lt (b : Bool) : enableCode b < 2 ^ 1 := by cases b <;> decide

theorem ofNat_prescCode_eq_one_iff (p : Prescaler) : BitVec.ofNat 1 (prescCode p) = 1 ↔ p = .high := by
  cases p <;> decide

theorem ofNat_enableCode_eq_one_iff (b : Bool) : BitVec.ofNat 1 (enableCode b) = 1 ↔ b = true := by
  cases b <;> decide

/-- The encoded words, split into their fields, hold what the commit puts into the plan registers (R98, R160). -/
theorem encodeWords_hold_plan {pl : Plan} {bs : Nat} (hpl : PlanFits pl) (hbs : bs ≤ Const.bsMax) (en : Bool)
    (pw : BitVec 2) (old : Vector Word 6) :
    let ws := encodeWords Config.decided pl bs en pw.toNat old
    (cfg0Of ws[0]).int = BitVec.ofNat 16 pl.int ∧ ((cfg1Of ws[1]).presc = 1 ↔ pl.p = .high) ∧
      (cfg2Of ws[2]).rcnt = BitVec.ofNat 10 pl.r ∧ (cfg2Of ws[2]).fix2 = 0xBF ∧
      (cfg4Of ws[4]).divsel = BitVec.ofNat 3 pl.n ∧ (cfg4Of ws[4]).bandsel = BitVec.ofNat 8 bs ∧
      ((cfg4Of ws[4]).rfen = 1 ↔ en = true) ∧ (cfg4Of ws[4]).rfpwr = pw := by
  intro ws
  obtain ⟨hn, hint, hr⟩ := hpl
  have field := slice_encodeWords pl bs en pw old
  have presc := field Config.decided.layout.presc (by simp [inserts]) (prescCode_lt pl.p)
  have rfen := field Config.decided.layout.rfen (by simp [inserts]) (enableCode_lt en)
  refine ⟨?int, ?presc, ?rcnt, ?fix2, ?divsel, ?bandsel, ?rfen, ?rfpwr⟩
  case int => exact field Config.decided.layout.int (by simp [inserts]) (Nat.lt_succ_of_le hint)
  case presc => exact (Eq.congr_left presc).trans (ofNat_prescCode_eq_one_iff pl.p)
  case rcnt => exact field Config.decided.layout.rcnt (by simp [inserts]) (Nat.lt_succ_of_le hr)
  case fix2 => exact field Config.decided.layout.fix2 (v := Config.decided.fix2Value) (by simp [inserts]) (by decide)
  case divsel => exact field Config.decided.layout.divsel (by simp [inserts]) (hn.trans_lt (by decide))
  case bandsel => exact field Config.decided.layout.bandsel (by simp [inserts]) (Nat.lt_succ_of_le hbs)
  case rfen => exact (Eq.congr_left rfen).trans (ofNat_enableCode_eq_one_iff en)
  case rfpwr =>
    exact (field Config.decided.layout.rfpwr (by simp [inserts]) pw.isLt).trans
      ((BitVec.ofNat_toNat 2 pw).trans (BitVec.setWidth_eq pw))

/-- Settles O53: the words are those of the commit, whose index bits are the stored ones and whose fields hold what the
commit put into the plan registers. -/
theorem transmittedWordsReadBackThePlan : Obligations.TransmittedWordsReadBackThePlan := by
  intro i s t hi hidx h hk
  obtain ⟨pl, fo, sn, hpl, ht⟩ := exec_set_commits hi h hk
  have index := slice_encodeWords_index pl (bandSelect Config.decided s.refFreq.toNat pl.r).1 s.outEn s.pwr hidx
  rw [ht]
  exact ⟨_, _, _, _, _, _, decode_of_index_zero (index 0), decode_of_index_one (index 1),
    decode_of_index_two (index 2), decode_of_index_three (index 3), decode_of_index_four (index 4),
    decode_of_index_five (index 5), encodeWords_hold_plan hpl (bandSelect_le ..) s.outEn s.pwr s.regs⟩

end Sys2Proof.Proofs

/-! PROOFS. The statements of 40_planner.md: the divider search (R121, R122), the exactness of a SETF (R127) and of the
response of SETFOPT (R133, R135), the parameters that SETF reads (R123, R126, R151), and the acceptance of a target with a
candidate by the two optimal commands (R132). -/

namespace Sys2Proof.Proofs

open Sys2Proof Sys2Proof.Machine Sys2Proof.Laws Sys2Proof.Stated

variable {fw pw : Nat}

/-! ### The divider search (R121, R122) -/

theorem inVcoRange_iff_vcoOk (f n : Nat) : inVcoRange f n = true ↔ vcoOk f n := by
  rw [inVcoRange_iff, Nat.mul_comm f]
  rfl

theorem divExp_ok_iff_leastExp (f n : Nat) : divExp f = .ok n ↔ leastExp f n := by
  simp only [divExp_ok_iff, ← Bool.not_eq_true, inVcoRange_iff_vcoOk]
  rfl

theorem divExp_eq_noDivider {f : Nat} (h : ∀ n ≤ 6, ¬ vcoOk f n) : divExp f = .error .noDivider := by
  cases hd : divExp f with
  | ok n =>
    obtain ⟨hn, hvco, -⟩ := (divExp_ok_iff_leastExp f n).1 hd
    exact absurd hvco (h n hn)
  | error e => rw [divExp_error hd]

/-- Settles O18. -/
theorem dividerSearchAnswersTheLeastExponent : Obligations.DividerSearchAnswersTheLeastExponent := fun f =>
  ⟨divExp_ok_iff_leastExp f, fun h => ⟨divExp_eq_noDivider h, rfl⟩⟩

/-! ### The cause NO_DIVIDER (R122, V8)

The range check comes before the divider search, and whatever passes it the search answers. -/

theorem rangeCheck_error_ne_noDivider {f : Nat} {e : Cause} (h : rangeCheck f = .error e) : e ≠ .noDivider := by
  rcases (rangeCheck_error_iff ..).1 h with ⟨-, rfl⟩ | ⟨-, -, rfl⟩ <;> decide

theorem ratioCheck_error_ne_noDivider {step ref : Nat} {e : Cause} (h : ratioCheck step ref = .error e) :
    e ≠ .noDivider := by
  rcases (ratioCheck_error_iff ..).1 h with ⟨-, rfl⟩ | ⟨-, -, rfl⟩ | ⟨-, -, -, rfl⟩ <;> decide

theorem gridCheck_error_ne_noDivider {f step lo : Nat} {e : Cause} (h : gridCheck f step lo = .error e) :
    e ≠ .noDivider := by
  rcases (gridCheck_error_iff ..).1 h with ⟨-, rfl⟩ | ⟨-, -, rfl⟩ | ⟨-, -, -, rfl⟩ <;> decide

theorem computeGridPlan_error_ne_noDivider {c : Config} {f step ref : Nat} {e : Cause}
    (h : computeGridPlan c f step ref = .error e) : e ≠ .noDivider := by
  rcases (computeGridPlan_error_iff ..).1 h with hrange | ⟨-, hratio | ⟨r, -, hgrid⟩⟩
  · exact rangeCheck_error_ne_noDivider hrange
  · exact ratioCheck_error_ne_noDivider hratio
  · exact gridCheck_error_ne_noDivider hgrid

theorem computeOptimalPlan_error_ne_noDivider {c : Config} {f ref : Nat} {e : Cause}
    (h : computeOptimalPlan c f ref = .error e) : e ≠ .noDivider := by
  rcases (computeOptimalPlan_error_iff ..).1 h with hrange | ⟨-, rfl, -⟩
  · exact rangeCheck_error_ne_noDivider hrange
  · decide

theorem raise_errCause_ne_noDivider {e : Cause} (he : e ≠ .noDivider) (s : State fw pw) :
    (raise e s).errCause ≠ some .noDivider := by
  rw [raise_errCause]
  exact fun h => he (Option.some.inj h)

/-- A transmit step raises TX_FAIL alone (R182). -/
theorem transmit_errCause {s t : State fw pw} (h : transmit s = .next t) :
    t.errCause = s.errCause ∨ t.errCause = some .txFail := by
  rcases transmit_cases h with ⟨rs, d, rfl⟩ | ⟨pre, i, post, rs, d, -, rfl⟩
  · exact .inl rfl
  · exact .inr rfl

theorem transmit_errCause_ne_noDivider {s t : State fw pw} (h : transmit s = .next t) (hs : s.errCause = none) :
    t.errCause ≠ some .noDivider := by
  rcases transmit_errCause h with hc | hc <;> simp [hc, hs]

/-- Settles O19: a command clears ERRCAUSE first, and no check it can fail has the cause NO_DIVIDER; any other instruction
leaves the state alone. -/
theorem noDividerIsNeverRaised : Obligations.NoDividerIsNeverRaised := by
  refine ⟨fun f => divExp_of_range, fun i s t hi h => ?_⟩
  cases i with
  | setf f =>
    rcases setFrequency_cases h with ⟨e, he, rfl⟩ | ⟨pl, -, ht⟩
    · exact raise_errCause_ne_noDivider (computeGridPlan_error_ne_noDivider he) _
    · exact transmit_errCause_ne_noDivider ht rfl
  | setfopt f =>
    rcases setFrequencyOptimally_cases h with ⟨e, he, rfl⟩ | ⟨o, -, ht⟩
    · exact raise_errCause_ne_noDivider (computeOptimalPlan_error_ne_noDivider he) _
    · exact transmit_errCause_ne_noDivider ht rfl
  | setstep hz =>
    rcases setStepsize_cases h with ⟨e, he, rfl⟩ | ⟨r, -, rfl⟩
    · exact raise_errCause_ne_noDivider (ratioCheck_error_ne_noDivider he) _
    · exact (Option.some_ne_none _).symm
  | getoptstep f =>
    rcases getOptimalStepsize_cases h with ⟨e, he, rfl⟩ | ⟨o, -, rfl⟩
    · exact raise_errCause_ne_noDivider (computeOptimalPlan_error_ne_noDivider he) _
    · exact (Option.some_ne_none _).symm
  | cfg0 _ | cfg1 _ | cfg2 _ | cfg3 _ | cfg4 _ | cfg5 _ =>
    cases h
    exact hi.resolve_left id

/-! ### The plan registers after a commit (R126, R195) -/

/-- A plan that fits the plan registers is read back from them. -/
theorem planOf_commitPlan (c : Config) {pl : Plan} (hpl : PlanFits pl) (fo : Nat) (sn : Bool) (s : State fw pw) :
    planOf (commitPlan c pl fo sn s) = pl := by
  obtain ⟨hn, hint, hr⟩ := hpl
  simp only [planOf, commitPlan, commit, toNat_ofNat_of_lt (show pl.n < 2 ^ 3 from hn.trans_lt (by decide)),
    toNat_ofNat_of_lt (show pl.int < 2 ^ 16 from hint.trans_lt (by decide)),
    toNat_ofNat_of_lt (show pl.r < 2 ^ 10 from hr.trans_lt (by decide))]

theorem planOf_setResult (q m : Nat) (s : State fw pw) : planOf (setResult q m s) = planOf s := rfl

theorem transmit_planOf {s t : State fw pw} (h : transmit s = .next t) : planOf t = planOf s := by
  rw [transmit_frame h]
  rfl

theorem transmit_outFreq {s t : State fw pw} (h : transmit s = .next t) : t.outFreq = s.outFreq := by
  rw [transmit_frame h]

theorem transmit_refFreq {s t : State fw pw} (h : transmit s = .next t) : t.refFreq = s.refFreq := by
  rw [transmit_frame h]

theorem transmit_pBs {s t : State fw pw} (h : transmit s = .next t) : t.pBs = s.pBs := by
  rw [transmit_frame h]

theorem transmit_snap {s t : State fw pw} (h : transmit s = .next t) : t.snap = s.snap := by
  rw [transmit_frame h]

theorem transmit_bsClamp {s t : State fw pw} (h : transmit s = .next t) : t.bsClamp = s.bsClamp := by
  rw [transmit_frame h]

theorem transmit_res {s t : State fw pw} (h : transmit s = .next t) : t.res = s.res := by
  rw [transmit_frame h]

theorem transmit_resRem {s t : State fw pw} (h : transmit s = .next t) : t.resRem = s.resRem := by
  rw [transmit_frame h]

/-! ### The plan that SETF leaves (R126, R127, R190) -/

/-- A SETF without error or with HardwareError has passed its checks: the plan registers hold its grid plan, which it
committed and transmitted. -/
theorem setf_transmits {c : Config} {f : Nat} {s t : State fw pw} (h : setFrequency c f s = .next t)
    (hk : t.errKind = none ∨ t.errKind = some .hardwareError) :
    computeGridPlan c f s.stepSize.toNat s.refFreq.toNat = .ok (planOf t) ∧
      transmit (commitPlan c (planOf t) f false (accept s)) = .next t := by
  rcases setFrequency_cases h with ⟨e, he, rfl⟩ | ⟨pl, hp, ht⟩
  · simp [kind_eq_hardwareError_iff, (computeGridPlan_error he).1] at hk
  · have hplan : planOf t = pl := (transmit_planOf ht).trans (planOf_commitPlan c (gridPlan_fits hp) ..)
    rw [hplan]
    exact ⟨hp, ht⟩

/-- Settles O30: the plan is a grid plan, which is exact, and OUTFREQ holds the target. -/
theorem setfPlanIsExact : Obligations.SetfPlanIsExact := by
  intro s t f h hk
  obtain ⟨hp, ht⟩ := setf_transmits h (.inl hk)
  obtain ⟨⟨-, hmax⟩, -⟩ := (computeGridPlan_ok_iff ..).1 hp
  have hout : t.outFreq.toNat = f := by
    rw [transmit_outFreq ht]
    exact toNat_ofNat_of_lt (hmax.trans_lt (by decide))
  refine ⟨hout, transmit_snap ht, ?_⟩
  rw [hout, transmit_refFreq ht]
  exact gridPlan_exact hp

/-! ### The parameters that SETF reads (R123, R151) -/

theorem nmin_presc (c : Config) (f : Nat) : nmin (presc c f) = if c.prescThreshold ≤ f then 75 else 23 :=
  apply_ite nmin ..

/-- For a positive reference the band select is the quotient cut at 255 (R151). -/
theorem bandSelect_fst {c : Config} {ref r : Nat} (hp : 0 < r * c.maxPfd) (href : 0 < ref) :
    (bandSelect c ref r).1 = min 255 (ceilDiv ref (r * c.maxPfd)) := by
  have hq : Const.bsMin ≤ bandQuotient c ref r := ceilDiv_pos href hp
  rw [bandSelect, if_neg (Nat.not_lt.2 hq)]
  split
  next habove => exact (min_eq_left habove.le).symm
  next hbelow => exact (min_eq_right (Nat.le_of_not_lt hbelow)).symm

/-- The dividers of a grid plan are the exact quotients by STEPSIZE of the target and of the reference (R124, R125). -/
theorem gridPlan_dividers {c : Config} {f step ref : Nat} {pl : Plan} (h : computeGridPlan c f step ref = .ok pl) :
    pl.int * step = f ∧ pl.r * step = ref := by
  obtain ⟨-, -, -, hr, hint⟩ := (computeGridPlan_ok_iff ..).1 h
  obtain ⟨-, hdvd, -, hr⟩ := (ratioCheck_ok_iff ..).1 hr
  obtain ⟨hgrid, -, -, hint⟩ := (gridCheck_ok_iff ..).1 hint
  rw [hint, hr]
  exact ⟨Nat.div_mul_cancel (Nat.dvd_of_mod_eq_zero hgrid), Nat.div_mul_cancel (Nat.dvd_of_mod_eq_zero hdvd)⟩

/-- The prescaler of a grid plan, and its least feedback integer (R123, R125). -/
theorem gridPlan_presc {c : Config} {f step ref : Nat} {pl : Plan} (h : computeGridPlan c f step ref = .ok pl) :
    pl.p = presc c f ∧ nmin (presc c f) ≤ pl.int := by
  obtain ⟨-, -, hpresc, -, hint⟩ := (computeGridPlan_ok_iff ..).1 h
  obtain ⟨-, hlo, -, hint⟩ := (gridCheck_ok_iff ..).1 hint
  exact ⟨hpresc, hint ▸ hlo⟩

/-- Settles O55: the dividers are those of the grid plan, and the band select is that of its divisor. -/
theorem setfReadsTheParameters : Obligations.SetfReadsTheParameters := by
  intro c s t f hc href h hk
  obtain ⟨hp, ht⟩ := setf_transmits h hk
  obtain ⟨hpresc, hlo⟩ := gridPlan_presc hp
  obtain ⟨hint, hr⟩ := gridPlan_dividers hp
  have hrpos : 0 < t.pR.toNat := Nat.pos_of_mul_pos_right (hr.symm ▸ href)
  have hpfd : 0 < t.pR.toNat * c.maxPfd := Nat.mul_pos hrpos hc.maxPfd_pos
  refine ⟨hpresc, ?_, hint, hr, ?band, ?clamp⟩
  · rw [← nmin_presc]
    exact hlo
  case band =>
    calc t.pBs.toNat = (bandSelect c s.refFreq.toNat t.pR.toNat).1 := by
          rw [transmit_pBs ht]
          exact toNat_ofNat_of_lt (Nat.lt_succ_of_le (bandSelect_le ..))
      _ = _ := bandSelect_fst hpfd href
  case clamp =>
    rw [transmit_bsClamp ht]
    exact (bandSelect_spec hpfd href).2.1

/-! ### The response of SETFOPT (R133, R135) -/

/-- Settles O38: RES and RESREM are quotient and remainder by P_R. They fit their registers, because the actual frequency
lies within half a target of the target and P_R is at most 1023. -/
theorem setfoptResponseIsExact : Obligations.SetfoptResponseIsExact := by
  intro s t f h hk
  obtain ⟨o, ho, ht⟩ := setfopt_transmits h hk
  have hplan : planOf t = o.plan := by
    rw [transmit_planOf ht, planOf_setResult, planOf_commitPlan _ (optimalPlan_fits ho)]
  have hout : t.outFreq = t.res := (transmit_outFreq ht).trans (transmit_res ht).symm
  obtain ⟨⟨hmin, hmax⟩, n, N, -, hbest, rfl⟩ := (computeOptimalPlan_ok_iff ..).1 ho
  have hf : 0 < f := lt_of_lt_of_le (by decide) hmin
  obtain ⟨hr, hrmax, hlo, -⟩ := isBest_bounds hf hbest
  have hint : t.pInt.toNat = N := congrArg Plan.int hplan
  have hpR : t.pR.toNat = candidateR Config.decided f s.refFreq.toNat N := congrArg Plan.r hplan
  have hres : t.res.toNat = N * s.refFreq.toNat / candidateR Config.decided f s.refFreq.toNat N := by
    rw [transmit_res ht]
    exact toNat_ofNat_of_lt (fits_of_target config_decided_wf ((actual_le hf hr).trans (Nat.mul_le_mul_left 3 hmax)))
  have hrem : t.resRem.toNat = N * s.refFreq.toNat % candidateR Config.decided f s.refFreq.toNat N := by
    rw [transmit_resRem ht]
    exact toNat_ofNat_of_lt ((Nat.mod_lt _ hr).trans_le (hrmax.trans (by decide)))
  rw [hint, hpR, hres, hrem, transmit_snap ht]
  exact ⟨hr, (nmin_presc ..).symm.trans_le hlo, Nat.div_add_mod' .., Nat.mod_lt _ hr, hout, snapFlag_iff ..⟩

/-! ### Acceptance by the optimal commands (R130 to R132) -/

theorem admissible_of_candidate {f ref N : Nat} (h : candidate f ref N) :
    Admissible Config.decided f ref (nmin (presc Config.decided f)) N := by
  obtain ⟨hlo, hratio, hhi, hr⟩ := h
  exact ⟨(nmin_presc ..).trans_le hlo, le_min hratio hhi, hr⟩

/-- With a candidate, a target in range has an optimal plan. -/
theorem computeOptimalPlan_of_candidate {f ref N : Nat} (hf : inRange f) (hN : candidate f ref N) :
    ∃ o, computeOptimalPlan Config.decided f ref = .ok o := by
  cases h : computeOptimalPlan Config.decided f ref with
  | ok o => exact ⟨o, rfl⟩
  | error e =>
    rcases (computeOptimalPlan_error_iff ..).1 h with hrange | ⟨-, -, none_admissible⟩
    · cases (rangeCheck_ok hf).symm.trans hrange
    · exact absurd (admissible_of_candidate hN) (none_admissible N)

theorem getOptimalStepsize_of_plan {c : Config} {f : Nat} {s : State fw pw} {o : OptPlan}
    (h : computeOptimalPlan c f s.refFreq.toNat = .ok o) :
    getOptimalStepsize c f s =
      .next (setResult (s.refFreq.toNat / o.plan.r) (s.refFreq.toNat % o.plan.r) (accept s)) := by
  simp only [getOptimalStepsize, accept_refFreq, h, floorDiv_eq]

theorem setFrequencyOptimally_of_plan {c : Config} {f : Nat} {s : State fw pw} {o : OptPlan}
    (h : computeOptimalPlan c f s.refFreq.toNat = .ok o) :
    setFrequencyOptimally c f s =
      transmit (setResult o.actQ o.actM (commitPlan c o.plan o.actQ o.snap (accept s))) := by
  simp only [setFrequencyOptimally, accept_refFreq, h]

/-- A transmit step completes where no silent answer is settled, and only a failed write gives it an error (R182, R184). -/
theorem transmit_completes {s : State fw pw} (hs : TxReply.silent ∉ s.replies) (hk : s.errKind = none) :
    ∃ t, transmit s = .next t ∧ (t.errKind = none ∨ t.errKind = some .hardwareError) := by
  have ht : transmit s = .next (writeAll (txWords s.regs) s) := (send_next_iff ..).2 ⟨hangs_eq_false hs _, rfl⟩
  refine ⟨_, ht, ?_⟩
  rcases transmit_cases ht with ⟨rs, d, hw⟩ | ⟨pre, i, post, rs, d, -, hw⟩ <;> rw [hw]
  · exact .inl hk
  · exact .inr rfl

/-- Settles O57: a candidate gives an optimal plan, and with a plan the query answers and SETFOPT transmits. -/
theorem optimalCommandsAcceptATargetWithACandidate : Obligations.OptimalCommandsAcceptATargetWithACandidate := by
  intro s f hf ⟨N, hN⟩
  obtain ⟨o, ho⟩ := computeOptimalPlan_of_candidate hf hN
  refine ⟨⟨_, getOptimalStepsize_of_plan ho, rfl⟩, fun hs => ?_⟩
  obtain ⟨t, ht, hk⟩ := transmit_completes
    (s := setResult o.actQ o.actM (commitPlan Config.decided o.plan o.actQ o.snap (accept s))) hs rfl
  exact ⟨t, (setFrequencyOptimally_of_plan ho).trans ht, hk⟩

end Sys2Proof.Proofs

/-! PROOFS. The statement of 41_bandselect.md: the band select is the clamped ceiling of the PFD rate over its
ceiling (R151). -/

namespace Sys2Proof.Proofs

open Sys2Proof Sys2Proof.Machine Sys2Proof.Laws

/-- The least number whose multiple of the divisor reaches the dividend is the rounded-up quotient (R7). -/
theorem ceilDiv_eq_of_lt_of_le {a b q : Nat} (hb : 0 < b) (hlt : (q - 1) * b < a) (hle : a ≤ q * b) :
    ceilDiv a b = q := by
  have hupper : ceilDiv a b ≤ q := (ceilDiv_le_iff hb q).2 hle
  have hlower : q - 1 < ceilDiv a b := Nat.lt_of_not_le fun h => hlt.not_ge ((ceilDiv_le_iff hb _).1 h)
  exact le_antisymm hupper (Nat.le_of_pred_lt hlower)

/-- The band select and its clamp flag at a known quotient: the lower clamp never binds (R151 to R153). -/
theorem bandSelect_of_ceilDiv_eq {c : Config} {ref r q : Nat} (href : 0 < ref) (hp : 0 < r * c.maxPfd)
    (hq : ceilDiv ref (r * c.maxPfd) = q) : bandSelect c ref r = (min 255 q, decide (255 < q)) := by
  subst hq
  exact Prod.ext (bandSelect_fst hp href) rfl

/-- Settles O20: at or below the PFD ceiling the quotient is 1, above it the least `q` that brings the rate under it. -/
theorem bandSelectIsTheClampedCeiling : Obligations.BandSelectIsTheClampedCeiling := by
  refine ⟨rfl, fun c ref r href hp => ⟨fun hle => ?below, fun q _ hlt hle => ?above⟩⟩
  case below =>
    have hone : ceilDiv ref (r * c.maxPfd) = 1 := ceilDiv_eq_of_lt_of_le hp (by omega) (by omega)
    exact bandSelect_of_ceilDiv_eq href hp hone
  case above => exact bandSelect_of_ceilDiv_eq href hp (ceilDiv_eq_of_lt_of_le hp hlt hle)

end Sys2Proof.Proofs

/-! PROOFS. The statements of 42_encoder.md: the words of the decided layout (R160 to R166), and over any layout the static
bits (R167, R170), an encode over an encode (R171) and the values read back (R168). -/

namespace Sys2Proof.Proofs

open Sys2Proof Sys2Proof.Machine Sys2Proof.Laws Sys2Proof.Stated

variable {fw pw : Nat}

/-! ### Any layout (R167 to R171) -/

/-- Settles O22: a bit that no field covers is a bit that no insert writes. -/
theorem encoderKeepsStaticBits : Obligations.EncoderKeepsStaticBits := by
  intro c pl bs en pw old i j hfree
  have hstatic : ∀ f ∈ (inserts c pl bs en pw).map Prod.fst, ¬ covers f i j :=
    fun f hf ⟨hword, hlo, hhi, _⟩ => hfree f hf ⟨hword, hlo, hhi⟩
  rw [encodeWords_eq, insertAll_static hstatic]

/-- Settles O23: an encode reads only the static bits of the old words, and the inner encode keeps those. -/
theorem encoderForgetsTheOldPlan : Obligations.EncoderForgetsTheOldPlan := encodeWords_encodeWords

theorem prescCode_eq_ite (p : Prescaler) : prescCode p = if p = .high then 1 else 0 := by cases p <;> rfl

/-- Settles O24: each value fits the width of its field (R91), and a field holds the value that was inserted. -/
theorem encodedFieldsReadBack : Obligations.EncodedFieldsReadBack := by
  intro c pl bs en pw old hc hn hint hr hbs hpw read
  have hl := hc.layout
  have field : ∀ {f : BitField} {v : Nat}, (f, v) ∈ inserts c pl bs en pw → v < 2 ^ f.width → read f = v :=
    encodeWords_field hl pl bs en pw old
  rw [← prescCode_eq_ite]
  refine ⟨?int, ?presc, ?rcnt, ?fix2, ?divsel, ?bandsel, ?rfen, ?rfpwr⟩
  case int => exact field (by simp [inserts]) (by rw [hl.int]; omega)
  case presc => exact field (by simp [inserts]) (by rw [hl.presc]; exact prescCode_lt pl.p)
  case rcnt => exact field (by simp [inserts]) (by rw [hl.rcnt]; omega)
  case fix2 => exact field (by simp [inserts]) hc.fix2_fits
  case divsel => exact field (by simp [inserts]) (by rw [hl.divsel]; omega)
  case bandsel => exact field (by simp [inserts]) (by rw [hl.bandsel]; omega)
  case rfen => exact field (v := enableCode en) (by simp [inserts]) (by rw [hl.rfen]; exact enableCode_lt en)
  case rfpwr => exact field (by simp [inserts]) (by rw [hl.rfpwr]; exact hpw)

/-! ### The words of the decided layout (R160 to R166) -/

/-- An insert writes the word of its field and no other. -/
theorem insertField_getElem (f : BitField) (v : Nat) (ws : Vector Word 6) (i : Nat) (hi : i < 6) :
    (insertField f v ws)[i] = if (f.word : Nat) = i then insertBits ws[i] f.hi f.lo v else ws[i] := by
  rw [insertField, Vector.getElem_set]
  split
  · subst i
    rfl
  · rfl

/-- The inserts of an encode, sorted by the word they write. -/
theorem encodeWords_decided (pl : Plan) (bs : Nat) (en : Bool) (pw : Nat) (old : Vector Word 6) :
    encodeWords Config.decided pl bs en pw old =
      #v[insertBits old[0] 30 15 pl.int, insertBits old[1] 27 27 (prescCode pl.p),
        insertBits (insertBits old[2] 23 14 pl.r) 13 6 0xBF, old[3],
        insertBits (insertBits (insertBits (insertBits old[4] 22 20 pl.n) 19 12 bs) 5 5 (enableCode en)) 4 3 pw,
        old[5]] := by
  apply Vector.ext
  intro i hi
  simp only [encodeWords, insertField_getElem]
  interval_cases i <;> rfl

/-- A value that fits its field, shifted to its place, has no bit outside the field. -/
theorem shiftLeft_and_mask {v hi lo : Nat} (hv : v < 2 ^ (hi + 1 - lo)) :
    (BitVec.ofNat 32 v <<< lo) &&& mask hi lo = BitVec.ofNat 32 v <<< lo := by
  apply BitVec.eq_of_getLsbD_eq
  intro j hj
  simp only [BitVec.getLsbD_and, getLsbD_mask, BitVec.getLsbD_shiftLeft, BitVec.getLsbD_ofNat]
  by_cases hhi : j ≤ hi
  · grind
  · have hbit : v.testBit (j - lo) = false :=
      Nat.testBit_lt_two_pow (hv.trans_le (Nat.pow_le_pow_right (by decide) (by omega)))
    simp [hbit]

/-- The value passes any word that holds the field's mask. -/
theorem shiftLeft_and_of_mask {v hi lo : Nat} {m : Word} (hv : v < 2 ^ (hi + 1 - lo))
    (hm : mask hi lo &&& m = mask hi lo) : (BitVec.ofNat 32 v <<< lo) &&& m = BitVec.ofNat 32 v <<< lo := by
  rw [← shiftLeft_and_mask hv, BitVec.and_assoc, hm]

/-- `insert` of a value that fits (00_scope.md section 8). -/
theorem insertBits_of_lt (w : Word) {hi lo v : Nat} (hv : v < 2 ^ (hi + 1 - lo)) :
    insertBits w hi lo v = (w &&& ~~~(mask hi lo)) ||| (BitVec.ofNat 32 v <<< lo) := by
  rw [insertBits, shiftLeft_and_mask hv]

/-- Word 2 (R163): RCNT lies outside the field of FIX2. -/
theorem insertBits_rcnt_fix2 (w : Word) {r : Nat} (hr : r ≤ 1023) :
    insertBits (insertBits w 23 14 r) 13 6 0xBF =
      (w &&& 0xFF00003F#32) ||| (BitVec.ofNat 32 r <<< 14) ||| (0xBF#32 <<< 6) := by
  have hr : r < 2 ^ (23 + 1 - 14) := Nat.lt_succ_of_le hr
  have hmask : ~~~(mask 23 14) &&& ~~~(mask 13 6) = 0xFF00003F#32 := by decide
  rw [insertBits_of_lt w hr, insertBits_of_lt _ (by decide), BitVec.and_or_distrib_right, BitVec.and_assoc, hmask,
    shiftLeft_and_of_mask hr (by decide)]

/-- Word 4 (R165): each value lies outside the fields that are inserted after it. -/
theorem insertBits_divsel_bandsel_rfen_rfpwr (w : Word) {n bs e p : Nat} (hn : n ≤ 6) (hbs : bs ≤ 255) (he : e < 2)
    (hp : p < 4) :
    insertBits (insertBits (insertBits (insertBits w 22 20 n) 19 12 bs) 5 5 e) 4 3 p =
      (w &&& 0xFF800FC7#32) ||| (BitVec.ofNat 32 n <<< 20) ||| (BitVec.ofNat 32 bs <<< 12) |||
        (BitVec.ofNat 32 e <<< 5) ||| (BitVec.ofNat 32 p <<< 3) := by
  have hn : n < 2 ^ (22 + 1 - 20) := Nat.lt_succ_of_le (hn.trans (by decide))
  have hbs : bs < 2 ^ (19 + 1 - 12) := Nat.lt_succ_of_le hbs
  have he : e < 2 ^ (5 + 1 - 5) := he
  have hp : p < 2 ^ (4 + 1 - 3) := hp
  have hmask : ~~~(mask 22 20) &&& (~~~(mask 19 12) &&& (~~~(mask 5 5) &&& ~~~(mask 4 3))) = 0xFF800FC7#32 := by
    decide
  simp (disch := decide) only [insertBits_of_lt _ hn, insertBits_of_lt _ hbs, insertBits_of_lt _ he,
    insertBits_of_lt _ hp, BitVec.and_or_distrib_right, BitVec.and_assoc, hmask, shiftLeft_and_of_mask hn,
    shiftLeft_and_of_mask hbs, shiftLeft_and_of_mask he]

/-- Settles O21: word by word, each insert writes a value that fits its field and keeps the values beside it. -/
theorem encoderWritesTheDecidedWords : Obligations.EncoderWritesTheDecidedWords := by
  intro pl bs en pw old hn hint hr hbs
  have hint : pl.int < 2 ^ (30 + 1 - 15) := Nat.lt_succ_of_le hint
  have hpresc : prescCode pl.p < 2 ^ (27 + 1 - 27) := prescCode_lt pl.p
  have hmask0 : ~~~(mask 30 15) = 0x80007FFF#32 := by decide
  have hmask1 : ~~~(mask 27 27) = 0xF7FFFFFF#32 := by decide
  rw [encodeWords_decided, insertBits_of_lt _ hint, insertBits_of_lt _ hpresc, insertBits_rcnt_fix2 _ hr,
    insertBits_divsel_bandsel_rfen_rfpwr _ hn hbs (enableCode_lt en) pw.isLt, prescCode_eq_ite, hmask0, hmask1]
  rfl

/-! ### Every step (R170) -/

theorem transmit_regs {s t : State fw pw} (h : transmit s = .next t) : t.regs = s.regs := by
  rw [transmit_frame h]

/-- An instruction leaves REGS as it was or merges a plan into it, under any parameters. -/
theorem execWith_keeps_or_encodes {c : Config} {i : Instr} {s t : State fw pw} (h : execWith c i s = .next t) :
    t.regs = s.regs ∨ ∃ pl bs en p, t.regs = encodeWords c pl bs en p s.regs := by
  rcases execWith_cases h with ⟨e, -, rfl⟩ | ⟨hz, r, -, -, rfl⟩ | ⟨f, o, -, -, rfl⟩ | ⟨f, pl, -, -, ht⟩ |
    ⟨f, o, -, -, ht⟩ | ⟨-, rfl⟩
  · exact .inl (raise_regs ..)
  · exact .inl rfl
  · exact .inl rfl
  · exact .inr ⟨pl, _, _, _, transmit_regs ht⟩
  · exact .inr ⟨o.plan, _, _, _, transmit_regs ht⟩
  · exact .inl rfl

/-- So does a step. -/
theorem stepWith_keeps_or_encodes {c : Config} {s t : State fw pw} (h : stepWith c s = .next t) :
    t.regs = s.regs ∨ ∃ pl bs en p, t.regs = encodeWords c pl bs en p s.regs := by
  rcases stepWith_cases h with ⟨-, rfl⟩ | ⟨fr, rest, i, -, -, hx⟩ | ⟨fr, rest, e, -, -, rfl⟩
  · exact .inl rfl
  · exact execWith_keeps_or_encodes (s := { s with pending := rest }) hx
  · exact .inl (raise_regs ..)

theorem dynamicMask_decided : ∀ i : WordIndex, dynamicMask Config.decided.layout i = dynamicBits[i] := by decide

/-- Settles O49: a step changes REGS by an encode at most, and an encode keeps the static bits. -/
theorem noStepChangesAStaticBit : Obligations.NoStepChangesAStaticBit := by
  intro s t i h
  rw [← dynamicMask_decided]
  rcases stepWith_keeps_or_encodes ((stepWith_decided s).trans h) with hkeep | ⟨pl, bs, en, p, hencode⟩
  · rw [hkeep]
  · rw [hencode, encodeWords_static]

end Sys2Proof.Proofs

/-! PROOFS. The statements of 43_transport.md: one write (R180), a transmit step that meets a silent answer (R184), and the
two frequency-set commands over a write that fails or is never answered (R182, R184). -/

namespace Sys2Proof.Proofs

open Sys2Proof Sys2Proof.Machine Sys2Proof.Laws Sys2Proof.Stated

variable {fw pw : Nat}

/-! ### A transmit step over settled answers (R180, R182, R184) -/

/-- A silent answer among the first six, the ones before it being ok, leaves a transmit step without an end (R184). -/
theorem transmit_oks_silent {s : State fw pw} {k : Nat} {rest : List TxReply} (hk : k < 6)
    (h : s.replies = okReplies k ++ .silent :: rest) : transmit s = .fault .transportSilent := by
  have hlength : (txWords s.regs).length = k + (5 - k + 1) := by
    have six : (txWords s.regs).length = 6 := rfl
    omega
  rw [transmit, send, hlength, h]
  exact if_pos (hangs_oks_silent k (5 - k) rest)

/-- A transmit step ends at its first failed write (R182). -/
theorem transmit_oks_fail {s : State} {pre post : List (WordIndex × Word)} {i : WordIndex} {v : Word}
    {rest : List TxReply} (hw : writesOf s.regs = pre ++ (i, v) :: post)
    (h : s.replies = okReplies pre.length ++ .answers .fail :: rest) :
    transmit s = .next (failed pre i v rest s) := by
  have hwords : txWords s.regs = pre ++ (i, v) :: post := hw
  rw [transmit, hwords]
  exact send_oks_fail pre post i v s rest h

/-! ### One write (R180) -/

theorem txWrite_of_answers {s : State fw pw} {a : TxAnswer} {rest : List TxReply} (h : s.replies = .answers a :: rest)
    (i : WordIndex) (v : Word) :
    txWrite i v s = (a, { s with
      txi := BitVec.ofNat 3 i, txLog := s.txLog ++ [⟨i, v, a⟩], replies := rest }) := by
  simp only [txWrite, takeAnswer, h]

theorem txWrite_of_nil {s : State fw pw} (h : s.replies = []) (i : WordIndex) (v : Word) :
    txWrite i v s = (Config.freeAnswer s.freeDraws, { s with
      txi := BitVec.ofNat 3 i, txLog := s.txLog ++ [⟨i, v, Config.freeAnswer s.freeDraws⟩],
      freeDraws := s.freeDraws + 1 }) := by
  simp only [txWrite, takeAnswer, h]

/-- Settles O43, one head of the settled answers at a time. -/
theorem txWriteRecordsTheWordAndItsAnswer : Obligations.TxWriteRecordsTheWordAndItsAnswer := fun _ i v =>
  ⟨fun _ _ h => txWrite_of_answers h i v, fun h => txWrite_of_nil h i v,
    fun _ h => transmit_oks_silent (k := 0) (by decide) h⟩

/-! ### The commit in the numbers of the spec (R126, R151, R195) -/

/-- The band select and its clamp flag at the decided PFD ceiling (R151, R153). -/
theorem bandSelect_decided {ref r : Nat} (hr : 0 < r) (href : 0 < ref) :
    bandSelect Config.decided ref r = (bandOf ref r, decide (255 * (r * 125000) < ref)) := by
  have hp : 0 < r * Config.decided.maxPfd := Nat.mul_pos hr (by decide)
  obtain ⟨-, hclamp, -⟩ := bandSelect_spec hp href
  exact Prod.ext (bandSelect_fst hp href) (Bool.eq_iff_iff.2 (hclamp.trans decide_eq_true_iff.symm))

/-- The commit of a plan that fits leaves the state that the spec describes (R195). -/
theorem commitPlan_decided {s : State} {f : Nat} {pl : Plan} (hpl : PlanFits pl) (hp : pl.p = prescOf f)
    (hr : 0 < pl.r) (href : 0 < s.refFreq.toNat) (fo : Nat) (sn : Bool) :
    commitPlan Config.decided pl fo sn (accept s) = committed f pl.n pl.int pl.r fo sn s := by
  obtain ⟨hn, hint, hrmax⟩ := hpl
  have hband : bandOf s.refFreq.toNat pl.r ≤ 255 := min_le_left ..
  have hwords : encodeWords Config.decided pl (bandOf s.refFreq.toNat pl.r) s.outEn s.pwr.toNat s.regs =
      wordsFor f pl.n pl.int pl.r s := by
    rw [wordsFor, ← hp]
    exact encoderWritesTheDecidedWords pl _ s.outEn s.pwr s.regs hn hint hrmax hband
  simp only [commitPlan, accept_refFreq, accept_outEn, accept_pwr, accept_regs, bandSelect_decided hr href, hwords]
  rw [commit, hp]
  rfl

/-- The grid plan of a target that meets its conditions (R126). -/
theorem computeGridPlan_of_gridPlannable {s : State} {f n : Nat} (h : gridPlannable f n s) :
    computeGridPlan Config.decided f s.stepSize.toNat s.refFreq.toNat =
      .ok ⟨n, prescOf f, f / s.stepSize.toNat, s.refFreq.toNat / s.stepSize.toNat⟩ := by
  obtain ⟨-, hrange, hexp, hstep, hratio, hrmax, hgrid, hmin, hmax⟩ := h
  have hlo : nmin (presc Config.decided f) ≤ f / s.stepSize.toNat := (nmin_presc ..).trans_le hmin
  exact (computeGridPlan_ok_iff ..).2 ⟨hrange, (divExp_ok_iff_leastExp f n).2 hexp, rfl,
    (ratioCheck_ok_iff ..).2 ⟨hstep, hratio, hrmax, rfl⟩, (gridCheck_ok_iff ..).2 ⟨hgrid, hlo, hmax, rfl⟩⟩

theorem setFrequency_of_plan {c : Config} {f : Nat} {s : State fw pw} {pl : Plan}
    (h : computeGridPlan c f s.stepSize.toNat s.refFreq.toNat = .ok pl) :
    setFrequency c f s = transmit (commitPlan c pl f false (accept s)) := by
  simp only [setFrequency, accept_stepSize, accept_refFreq, h]

/-- A SETF that meets the conditions of a grid plan commits it and transmits (R190). -/
theorem exec_setf_of_gridPlannable {s : State} {f n : Nat} (h : gridPlannable f n s) :
    exec (.setf f) s = transmit
      (committed f n (f / s.stepSize.toNat) (s.refFreq.toNat / s.stepSize.toNat) f false s) := by
  have hplan := computeGridPlan_of_gridPlannable h
  obtain ⟨href, -, -, hstep, hratio, -⟩ := h
  have hr : 0 < s.refFreq.toNat / s.stepSize.toNat :=
    Nat.div_pos (Nat.le_of_dvd href (Nat.dvd_of_mod_eq_zero hratio)) (Nat.pos_of_ne_zero hstep)
  rw [← commitPlan_decided (gridPlan_fits hplan) rfl hr href]
  exact setFrequency_of_plan hplan

/-! ### The commands over a failed or a silent write (R182, R184) -/

/-- Settles O27: the transmit step after the commit ends at the failed write. -/
theorem setfEndsAtAFailedWrite : Obligations.SetfEndsAtAFailedWrite := by
  intro s f n pre post i v rest h hwords hreplies
  rw [exec_setf_of_gridPlannable h]
  exact transmit_oks_fail hwords hreplies

/-- Settles O28: the transmit step after the commit has no end. -/
theorem setfHangsOnASilentTransport : Obligations.SetfHangsOnASilentTransport := by
  intro s f n k rest h hk hreplies
  rw [exec_setf_of_gridPlannable h]
  exact transmit_oks_silent hk hreplies

/-- Settles O34: with a candidate there is a plan, and the transmit step after its commit has no end. -/
theorem setfoptHangsOnASilentTransport : Obligations.SetfoptHangsOnASilentTransport := by
  intro s f n N k rest ⟨_, hrange, _, hcandidate, _⟩ hk hreplies
  obtain ⟨o, ho⟩ := computeOptimalPlan_of_candidate hrange hcandidate
  exact (setFrequencyOptimally_of_plan ho).trans (transmit_oks_silent hk hreplies)

end Sys2Proof.Proofs

/-! PROOFS. The statements of 44_commands.md: what SETF does when it is accepted, rejected and repeated (R190), the best
pair of SETFOPT and GETOPTSTEP (R191, R193), their independence of STEPSIZE (R135), and SETSTEP (R192). -/

namespace Sys2Proof.Proofs

open Sys2Proof Sys2Proof.Machine Sys2Proof.Laws Sys2Proof.Stated

variable {fw pw : Nat}

/-! ### The transmit step that ends a command (R180, R182) -/

/-- A transmit step whose six writes are all answered ok sends the six words. -/
theorem transmit_oks {s : State} {rest : List TxReply} (h : s.replies = okReplies 6 ++ rest) :
    transmit s = .next (sent (writesOf s.regs) rest s) :=
  send_oks (txWords s.regs) s rest h

/-- Where no silent answer is settled, a transmit step ends with TXI at 0, entries added to TXLOG, and no other change
but in the error registers and the account of the answers. -/
theorem transmit_settles {s : State fw pw} (hs : TxReply.silent ∉ s.replies) (hk : s.errKind = none) :
    ∃ (t : State fw pw) (log : List TxEntry), transmit s = .next t ∧
      (t.errKind = none ∨ t.errKind = some .hardwareError) ∧
      t = { s with
        errKind := t.errKind, errCause := t.errCause, errIdx := t.errIdx, txi := 0
        txLog := s.txLog ++ log, replies := t.replies, freeDraws := t.freeDraws } := by
  obtain ⟨t, ht, hkind⟩ := transmit_completes hs hk
  rcases send_cases ht with ⟨rs, d, rfl⟩ | ⟨pre, i, v, post, rs, d, -, rfl⟩
  · exact ⟨_, okEntries (txWords s.regs), ht, hkind, rfl⟩
  · refine ⟨_, okEntries pre ++ [⟨i, v, .fail⟩], ht, hkind, ?_⟩
    rw [← List.append_assoc]
    rfl

/-! ### Rejected commands (R214, R217) -/

/-- An error raised before the commit leaves the state as it was but for the error registers. -/
theorem raise_accept {e : Cause} (he : e ≠ .txFail) (s : State) : raise e (accept s) = rejected e.kind e s :=
  raise_of_ne_txFail he _

theorem setFrequency_of_error {c : Config} {f : Nat} {s : State fw pw} {e : Cause}
    (h : computeGridPlan c f s.stepSize.toNat s.refFreq.toNat = .error e) :
    setFrequency c f s = .next (raise e (accept s)) := by
  simp only [setFrequency, accept_stepSize, accept_refFreq, h]

theorem setFrequencyOptimally_of_error {c : Config} {f : Nat} {s : State fw pw} {e : Cause}
    (h : computeOptimalPlan c f s.refFreq.toNat = .error e) :
    setFrequencyOptimally c f s = .next (raise e (accept s)) := by
  simp only [setFrequencyOptimally, accept_refFreq, h]

theorem getOptimalStepsize_of_error {c : Config} {f : Nat} {s : State fw pw} {e : Cause}
    (h : computeOptimalPlan c f s.refFreq.toNat = .error e) :
    getOptimalStepsize c f s = .next (raise e (accept s)) := by
  simp only [getOptimalStepsize, accept_refFreq, h]

theorem setStepsize_of_error {hz : Nat} {s : State fw pw} {e : Cause} (h : ratioCheck hz s.refFreq.toNat = .error e) :
    setStepsize hz s = .next (raise e (accept s)) := by
  simp only [setStepsize, accept_refFreq, h]

theorem setStepsize_of_ok {hz r : Nat} {s : State fw pw} (h : ratioCheck hz s.refFreq.toNat = .ok r) :
    setStepsize hz s = .next { accept s with stepSize := BitVec.ofNat fw hz } := by
  simp only [setStepsize, accept_refFreq, h]

/-! ### SETSTEP (R124, R192) -/

/-- The kind and the cause that a failed check is reported with. -/
def failureOf {α : Type} : Except Cause α → Option (ErrKind × Cause)
  | .error e => some (e.kind, e)
  | .ok _ => none

theorem failureOf_eq_some_iff {α : Type} (x : Except Cause α) (k : ErrKind) (e : Cause) :
    failureOf x = some (k, e) ↔ x = .error e ∧ e.kind = k := by
  cases x with
  | error e' =>
    simp only [failureOf, Option.some.injEq, Prod.mk.injEq, Except.error.injEq]
    exact ⟨fun ⟨hk, he⟩ => ⟨he, he ▸ hk⟩, fun ⟨he, hk⟩ => ⟨he ▸ hk, he⟩⟩
  | ok a => simp [failureOf]

theorem failureOf_eq_none_iff {α : Type} (x : Except Cause α) : failureOf x = none ↔ ∃ a, x = .ok a := by
  cases x <;> simp [failureOf]

/-- The ratio check fails as the spec states, in its order (R124). -/
theorem failureOf_ratioCheck (step ref : Nat) : failureOf (ratioCheck step ref) = ratioFailure step ref := by
  rw [ratioCheck, apply_ite failureOf, apply_ite failureOf, apply_ite failureOf]
  rfl

/-- Settles O42: the stepsize is rejected or stored as the ratio check decides. -/
theorem setstepStoresACheckedStepsize : Obligations.SetstepStoresACheckedStepsize := by
  intro s hz
  rw [← failureOf_ratioCheck]
  cases h : ratioCheck hz s.refFreq.toNat with
  | error e => exact (setStepsize_of_error h).trans (congrArg _ (raise_accept (ratioCheck_error h).1 s))
  | ok r => exact setStepsize_of_ok h

/-! ### SETF (R126, R190) -/

/-- Settles O25: the commit of the grid plan and its transmit step. -/
theorem setfCommitsAndTransmits : Obligations.SetfCommitsAndTransmits := by
  intro s f n rest h hreplies
  rw [exec_setf_of_gridPlannable h]
  exact transmit_oks hreplies

/-- Settles O29: the transmit step after the commit completes whatever is answered. -/
theorem setfCompletesForEveryAnswer : Obligations.SetfCompletesForEveryAnswer := by
  intro s f n h hs
  rw [exec_setf_of_gridPlannable h]
  exact transmit_settles hs rfl

/-- The range check fails as the spec states, in its order (R120). -/
theorem failureOf_rangeCheck (f : Nat) :
    failureOf (rangeCheck f) =
      if f < 40000000 then some (.rangeError, .fBelowMin)
      else if f > 4400000000 then some (.rangeError, .fAboveMax)
      else none := by
  rw [rangeCheck, apply_ite failureOf, apply_ite failureOf]
  rfl

/-- The grid check fails as the spec states, in its order (R125). -/
theorem failureOf_gridCheck (f step lo : Nat) :
    failureOf (gridCheck f step lo) =
      if f % step ≠ 0 then some (.gridError, .notOnGrid)
      else if f / step < lo then some (.gridError, .intBelowNmin)
      else if f / step > 65535 then some (.gridError, .intAboveMax)
      else none := by
  rw [gridCheck, apply_ite failureOf, apply_ite failureOf, apply_ite failureOf]
  rfl

/-- The failing check that the spec states for SETF is the first of the range, the ratio and the grid check (R217). -/
theorem gridFailure_eq (f step ref : Nat) :
    gridFailure f step ref = (failureOf (rangeCheck f)).or
      ((failureOf (ratioCheck step ref)).or (failureOf (gridCheck f step (nminOf f)))) := by
  rw [gridFailure, ← failureOf_gridCheck, ← failureOf_ratioCheck, failureOf_rangeCheck]
  split_ifs
  · rfl
  · rfl
  · cases ratioCheck step ref <;> rfl

/-- Nmin of a target in the numbers of the spec (R123). -/
theorem nmin_presc_decided (f : Nat) : nmin (presc Config.decided f) = nminOf f := nmin_presc ..

/-- The planner rejects with the check that the spec states as the first failing one. -/
theorem computeGridPlan_of_gridFailure {f step ref : Nat} {k : ErrKind} {e : Cause}
    (h : gridFailure f step ref = some (k, e)) :
    computeGridPlan Config.decided f step ref = .error e ∧ e.kind = k := by
  simp only [gridFailure_eq, Option.or_eq_some_iff, failureOf_eq_some_iff, failureOf_eq_none_iff] at h
  rw [computeGridPlan_error_iff, nmin_presc_decided]
  rcases h with ⟨hrange, hk⟩ | ⟨⟨u, hrange⟩, ⟨hratio, hk⟩ | ⟨hratio, hgrid, hk⟩⟩
  · exact ⟨.inl hrange, hk⟩
  · exact ⟨.inr ⟨(rangeCheck_ok_iff f u).1 hrange, .inl hratio⟩, hk⟩
  · obtain ⟨r, hratio⟩ := hratio
    exact ⟨.inr ⟨(rangeCheck_ok_iff f u).1 hrange, .inr ⟨r, hratio, hgrid⟩⟩, hk⟩

/-- Settles O26: the planner has the first failing check as its error, which is raised before anything is committed. -/
theorem setfRejectsAtTheFirstFailingCheck : Obligations.SetfRejectsAtTheFirstFailingCheck := by
  intro s f k e h
  obtain ⟨hplan, rfl⟩ := computeGridPlan_of_gridFailure h
  rw [← raise_accept (computeGridPlan_error hplan).1]
  exact setFrequency_of_error hplan

/-- After a plan is committed and transmitted, committing it again changes nothing: the encoder forgets the old plan. -/
theorem commitPlan_again {c : Config} {pl : Plan} {fo : Nat} {sn : Bool} {s t : State fw pw}
    (h : transmit (commitPlan c pl fo sn s) = .next t) : commitPlan c pl fo sn (accept t) = accept t := by
  rw [transmit_frame h]
  simp only [commitPlan, commit, accept, encodeWords_encodeWords]

/-- Settles O31: the second SETF has the same plan, so after its commit it transmits the same words. -/
theorem repeatedSetfSendsTheSameWords : Obligations.RepeatedSetfSendsTheSameWords := by
  intro s t u f ht htk hu huk
  obtain ⟨hp, hcommit⟩ := setf_transmits ht (.inl htk)
  obtain ⟨hp', hcommit'⟩ := setf_transmits hu (.inl huk)
  have hplan : planOf u = planOf t := by
    rw [transmit_stepSize hcommit, transmit_refFreq hcommit] at hp'
    exact Except.ok.inj (hp'.symm.trans hp)
  rw [hplan, commitPlan_again hcommit] at hcommit'
  have hregs : u.regs = t.regs := transmit_regs (s := accept t) hcommit'
  have hlog := exec_txLog_of_ok (i := .setf f) trivial hu huk
  rw [hregs] at hlog
  exact ⟨okLog (writesOf t.regs), rfl, exec_txLog_of_ok (i := .setf f) trivial ht htk, hlog, hregs, hplan,
    transmit_pBs (s := accept t) hcommit', transmit_outFreq (s := accept t) hcommit'⟩

/-! ### The best pair in the numbers of the spec (R130 to R134) -/

theorem candidateDev_decided (f ref N : Nat) : candidateDev Config.decided f ref N = deviationOf f ref N := by
  have habs := absDiff_eq_abs (N * ref) (divisorOf f ref N * f)
  rw [← Int.natCast_natAbs] at habs
  exact Int.ofNat.inj habs

theorem admissible_decided_iff (f ref N : Nat) :
    Admissible Config.decided f ref (nmin (presc Config.decided f)) N ↔ candidate f ref N := by
  refine ⟨fun ⟨hlo, hmax, hr⟩ => ?_, admissible_of_candidate⟩
  obtain ⟨hratio, hhi⟩ := le_min_iff.1 hmax
  exact ⟨(nmin_presc_decided f).symm.trans_le hlo, hratio, hhi, hr⟩

theorem isBest_decided_iff (f ref N : Nat) :
    IsBest Config.decided f ref (nmin (presc Config.decided f)) N ↔ bestCandidate f ref N := by
  simp only [IsBest, bestCandidate, admissible_decided_iff, candidateDev_decided]

/-- The optimal plan of a target that meets its conditions (R134). -/
theorem computeOptimalPlan_of_optPlannable {s : State} {f n N : Nat} (h : optPlannable f n N s) :
    computeOptimalPlan Config.decided f s.refFreq.toNat = .ok (optPlanOf Config.decided f s.refFreq.toNat n N) := by
  obtain ⟨-, hrange, hexp, hbest⟩ := h
  exact (computeOptimalPlan_ok_iff ..).2
    ⟨hrange, n, N, (divExp_ok_iff_leastExp f n).2 hexp, (isBest_decided_iff ..).2 hbest, rfl⟩

/-- A SETFOPT that meets the conditions of an optimal plan commits it, reports it and transmits (R191). -/
theorem exec_setfopt_of_optPlannable {s : State} {f n N : Nat} (h : optPlannable f n N s) :
    exec (.setfopt f) s = transmit (committedOpt f n N (divisorOf f s.refFreq.toNat N) s) := by
  have hplan := computeOptimalPlan_of_optPlannable h
  obtain ⟨href, -, -, ⟨-, -, -, hr⟩, -⟩ := h
  refine (setFrequencyOptimally_of_plan hplan).trans ?_
  rw [commitPlan_decided (optimalPlan_fits hplan) rfl hr href]
  rfl

/-! ### SETFOPT and GETOPTSTEP on the best pair (R191, R193) -/

/-- Settles O32: the commit of the best pair and its transmit step. -/
theorem setfoptCommitsTheBestPair : Obligations.SetfoptCommitsTheBestPair := by
  intro s f n N rest h hreplies
  rw [exec_setfopt_of_optPlannable h]
  exact transmit_oks hreplies

/-- Settles O33: the transmit step after the commit ends at the failed write. -/
theorem setfoptEndsAtAFailedWrite : Obligations.SetfoptEndsAtAFailedWrite := by
  intro s f n N pre post i v rest h hwords hreplies
  rw [exec_setfopt_of_optPlannable h]
  exact transmit_oks_fail hwords hreplies

/-- Settles O35: the transmit step after the commit and the response completes whatever is answered. -/
theorem setfoptCompletesForEveryAnswer : Obligations.SetfoptCompletesForEveryAnswer := by
  intro s f n N h hs
  rw [exec_setfopt_of_optPlannable h]
  exact transmit_settles hs rfl

/-- Settles O36: the query reads the divisor of the best pair and commits nothing. -/
theorem getoptstepAnswersTheGridStep : Obligations.GetoptstepAnswersTheGridStep := fun _ _ _ _ h =>
  getOptimalStepsize_of_plan (computeOptimalPlan_of_optPlannable h)

/-! ### The response of GETOPTSTEP as a stepsize (R192, R193) -/

/-- An exact quotient of the reference by a divisor up to 1023 passes the ratio check. -/
theorem ratioCheck_of_mul_eq {step ref r : Nat} (href : 0 < ref) (h : step * r = ref) (hr : r ≤ Const.rMax) :
    ratioCheck step ref = .ok r := by
  subst h
  have hstep : 0 < step := Nat.pos_of_mul_pos_right href
  have hquot : step * r / step = r := Nat.mul_div_cancel_left r hstep
  exact (ratioCheck_ok_iff ..).2 ⟨hstep.ne', Nat.mul_mod_right step r, hquot.trans_le hr, hquot.symm⟩

theorem optimalPlan_r_pos {c : Config} {f ref : Nat} {o : OptPlan} (h : computeOptimalPlan c f ref = .ok o) :
    1 ≤ o.plan.r := by
  obtain ⟨-, n, N, -, ⟨⟨-, -, hr⟩, -⟩, rfl⟩ := (computeOptimalPlan_ok_iff ..).1 h
  exact hr

/-- Settles O39: RES and RESREM are quotient and remainder of REFFREQ by the divisor of the best pair, and fit their
registers. -/
theorem getoptstepResponseIsAStepsize : Obligations.GetoptstepResponseIsAStepsize := by
  intro s t f href h hk
  rcases getOptimalStepsize_cases h with ⟨e, -, rfl⟩ | ⟨o, ho, ht⟩
  · cases (raise_errKind _ e).symm.trans hk
  have hr : 1 ≤ o.plan.r := optimalPlan_r_pos ho
  obtain ⟨-, -, hrmax⟩ := optimalPlan_fits ho
  have hres : t.res.toNat = s.refFreq.toNat / o.plan.r := by
    rw [ht]
    exact toNat_ofNat_of_lt ((Nat.div_le_self ..).trans_lt s.refFreq.isLt)
  have hrem : t.resRem.toNat = s.refFreq.toNat % o.plan.r := by
    rw [ht]
    exact toNat_ofNat_of_lt ((Nat.mod_lt _ hr).trans_le (hrmax.trans (by decide)))
  have hdiv : t.res.toNat * o.plan.r + t.resRem.toNat = s.refFreq.toNat := by
    rw [hres, hrem]
    exact Nat.div_add_mod' ..
  refine ⟨o.plan.r, hr, hrmax, hdiv, hrem.trans_lt (Nat.mod_lt _ hr), fun hzero => ?_⟩
  rw [hzero] at hdiv
  have hcheck : ratioCheck t.res.toNat t.refFreq.toNat = .ok o.plan.r := by
    rw [ht] at hdiv ⊢
    exact ratioCheck_of_mul_eq href hdiv hrmax
  refine (setStepsize_of_ok hcheck).trans ?_
  rw [BitVec.ofNat_toNat, BitVec.setWidth_eq]
  rfl

/-! ### The default reference (C5) -/

/-- At 10 MHz 220 is a candidate for every target in range: it is at least either Nmin, and at the top of the range its
multiple of the reference is half the target, which still rounds to 1. -/
theorem candidate_at_ten_megahertz {f : Nat} (hf : inRange f) : candidate f 10000000 220 := by
  obtain ⟨hmin, hmax⟩ := hf
  refine ⟨?_, ?_, by decide, ?_⟩
  · rw [nminOf]
    split <;> decide
  · omega
  · rw [divisorOf, Nat.one_le_div_iff (by omega)]
    omega

/-- Settles O40: with a candidate the optimal commands are not rejected. -/
theorem optimalCommandsAcceptEveryTargetAtTenMegahertz :
    Obligations.OptimalCommandsAcceptEveryTargetAtTenMegahertz := by
  intro s f href hf hs
  have hcandidate : candidate f s.refFreq.toNat 220 := by
    rw [href]
    exact candidate_at_ten_megahertz hf
  obtain ⟨hquery, hset⟩ := optimalCommandsAcceptATargetWithACandidate s f hf ⟨220, hcandidate⟩
  exact ⟨hset hs, hquery⟩

/-! ### The optimal commands and STEPSIZE (R46, R135)

A change of the state that no transport write sees goes through a transmit step unchanged. -/

/-- The change `g` leaves alone what a transmit step reads, and commutes with what it writes. -/
structure UnseenByTransport (g : State → State) : Prop where
  regs : ∀ s, (g s).regs = s.regs
  replies : ∀ s, (g s).replies = s.replies
  write : ∀ i v s, txWrite i v (g s) = Prod.map id g (txWrite i v s)
  fail : ∀ s, raise .txFail (g s) = g (raise .txFail s)
  done : ∀ s, { g s with txi := 0 } = g { s with txi := 0 }

theorem writeAll_of_unseen {g : State → State} (hg : UnseenByTransport g) (ws : List (WordIndex × Word))
    (s : State) : writeAll ws (g s) = g (writeAll ws s) := by
  induction ws generalizing s with
  | nil => exact hg.done s
  | cons p ws ih =>
    rw [writeAll, writeAll, hg.write]
    rcases txWrite p.1 p.2 s with ⟨_ | _, s1⟩
    · exact ih s1
    · exact hg.fail s1

theorem transmit_of_unseen {g : State → State} (hg : UnseenByTransport g) (s : State) :
    transmit (g s) = mapNext g (transmit s) := by
  simp only [transmit, send, hg.regs, hg.replies, writeAll_of_unseen hg]
  split <;> rfl

/-- STEPSIZE set from outside. -/
def withStepSize (x : BitVec 64) (s : State) : State := { s with stepSize := x }

theorem withStepSize_unseenByTransport (x : BitVec 64) : UnseenByTransport (withStepSize x) where
  regs _ := rfl
  replies _ := rfl
  write i v s := by
    simp only [txWrite, takeAnswer, withStepSize]
    split <;> rfl
  fail _ := rfl
  done _ := rfl

theorem raise_withStepSize (e : Cause) (x : BitVec 64) (s : State) :
    raise e (withStepSize x s) = withStepSize x (raise e s) := by
  cases e <;> rfl

theorem setFrequencyOptimally_withStepSize (c : Config) (f : Nat) (x : BitVec 64) (s : State) :
    setFrequencyOptimally c f (withStepSize x s) = mapNext (withStepSize x) (setFrequencyOptimally c f s) := by
  cases h : computeOptimalPlan c f s.refFreq.toNat with
  | error e =>
    rw [setFrequencyOptimally_of_error h, setFrequencyOptimally_of_error (s := withStepSize x s) h]
    exact congrArg _ (raise_withStepSize e x (accept s))
  | ok o =>
    rw [setFrequencyOptimally_of_plan h, setFrequencyOptimally_of_plan (s := withStepSize x s) h]
    exact transmit_of_unseen (withStepSize_unseenByTransport x)
      (setResult o.actQ o.actM (commitPlan c o.plan o.actQ o.snap (accept s)))

theorem getOptimalStepsize_withStepSize (c : Config) (f : Nat) (x : BitVec 64) (s : State) :
    getOptimalStepsize c f (withStepSize x s) = mapNext (withStepSize x) (getOptimalStepsize c f s) := by
  cases h : computeOptimalPlan c f s.refFreq.toNat with
  | error e =>
    rw [getOptimalStepsize_of_error h, getOptimalStepsize_of_error (s := withStepSize x s) h]
    exact congrArg _ (raise_withStepSize e x (accept s))
  | ok o =>
    rw [getOptimalStepsize_of_plan h, getOptimalStepsize_of_plan (s := withStepSize x s) h]
    rfl

/-- Settles O41: the two commands plan from the target and REFFREQ alone, and neither an error nor a commit, a response
or a transmit step sees STEPSIZE. -/
theorem optimalCommandsIgnoreTheStepsize : Obligations.OptimalCommandsIgnoreTheStepsize := by
  rintro s f x i (rfl | rfl)
  · exact setFrequencyOptimally_withStepSize _ f x s
  · exact getOptimalStepsize_withStepSize _ f x s

end Sys2Proof.Proofs

/-! PROOFS. The statements of 60_exceptions.md: what `raise` records (R210, R212) and the codes it is reported with (R84,
R211), the rejections of the two optimal commands (R217), and that an error raised before the commit changes the error
registers alone (R214). -/

namespace Sys2Proof.Proofs

open Sys2Proof Sys2Proof.Machine Sys2Proof.Laws Sys2Proof.Stated

variable {fw pw : Nat}

/-! ### Raising and reporting an error (R84, R210 to R212) -/

/-- A failed write moves the index it was sending from TXI to ERRIDX. -/
theorem raise_txFail (s : State fw pw) :
    raise .txFail s =
      { s with errKind := some .hardwareError, errCause := some .txFail, errIdx := s.txi, txi := 0 } := rfl

/-- Settles O16: TX_FAIL is the one cause of kind HardwareError, so `raise` treats it apart from all others. -/
theorem raiseRecordsTheError : Obligations.RaiseRecordsTheError := by
  intro e s
  split
  next he => rw [he, raise_txFail]
  next he => exact raise_of_ne_txFail he s

/-- Settles O17: the response reads the registers, and the three lists of codes are those of the tables. -/
theorem errorCodesOfTheResponse : Obligations.ErrorCodesOfTheResponse :=
  ⟨fun _ => rfl, rfl, rfl, rfl⟩

/-! ### The rejections of the optimal commands (R120, R132, R217) -/

theorem computeOptimalPlan_of_below (c : Config) {f : Nat} (ref : Nat) (hf : f < Const.fMin) :
    computeOptimalPlan c f ref = .error .fBelowMin :=
  (computeOptimalPlan_error_iff ..).2 (.inl ((rangeCheck_error_iff ..).2 (.inl ⟨hf, rfl⟩)))

theorem computeOptimalPlan_of_above (c : Config) {f : Nat} (ref : Nat) (hf : Const.fMax < f) :
    computeOptimalPlan c f ref = .error .fAboveMax :=
  have hmin : Const.fMin ≤ f := (show Const.fMin ≤ Const.fMax by decide).trans hf.le
  (computeOptimalPlan_error_iff ..).2 (.inl ((rangeCheck_error_iff ..).2 (.inr ⟨hmin, hf, rfl⟩)))

/-- Without a candidate the search of a target in range selects nothing. -/
theorem computeOptimalPlan_of_no_candidate {f ref : Nat} (hf : inRange f) (hnone : ∀ N, ¬ candidate f ref N) :
    computeOptimalPlan Config.decided f ref = .error .optNoCandidate :=
  (computeOptimalPlan_error_iff ..).2 (.inr ⟨hf, rfl, fun N hN => hnone N ((admissible_decided_iff ..).1 hN)⟩)

/-- SETFOPT and GETOPTSTEP are both rejected with the cause that the optimal planner answers. -/
theorem exec_optimal_of_error {i : Instr} {f : Nat} {s : State} {e : Cause}
    (hi : i = .setfopt f ∨ i = .getoptstep f)
    (h : computeOptimalPlan Config.decided f s.refFreq.toNat = .error e) :
    exec i s = .next (rejected e.kind e s) := by
  rw [← raise_accept (computeOptimalPlan_error h).1]
  rcases hi with rfl | rfl
  · exact setFrequencyOptimally_of_error h
  · exact getOptimalStepsize_of_error h

/-- Settles O37: the planner answers the cause in each of the three cases, and its kind is the one stated. -/
theorem optimalCommandsRejectedForRangeOrNoCandidate :
    Obligations.OptimalCommandsRejectedForRangeOrNoCandidate := fun _ _ _ hi =>
  ⟨fun hf => exec_optimal_of_error hi (computeOptimalPlan_of_below _ _ hf),
    fun hf => exec_optimal_of_error hi (computeOptimalPlan_of_above _ _ hf),
    fun hf hnone => exec_optimal_of_error hi (computeOptimalPlan_of_no_candidate hf hnone)⟩

/-! ### Errors raised before the commit (R214) -/

/-- A transmit step raises HardwareError alone (R182). -/
theorem transmit_errKind {s t : State fw pw} (h : transmit s = .next t) :
    t.errKind = s.errKind ∨ t.errKind = some .hardwareError := by
  rcases transmit_cases h with ⟨rs, d, rfl⟩ | ⟨pre, i, post, rs, d, -, rfl⟩
  · exact .inl rfl
  · exact .inr rfl

/-- A command that is accepted and then rejected for any cause but TX_FAIL changes the error registers alone. -/
theorem raise_accept_frame {e : Cause} (he : e ≠ .txFail) (s : State) :
    raise e (accept s) =
      { s with
        errKind := (raise e (accept s)).errKind, errCause := (raise e (accept s)).errCause
        errIdx := (raise e (accept s)).errIdx } := by
  rw [raise_accept he]
  rfl

/-- An instruction that ends with an error other than HardwareError did not reach its commit: what follows the commit, the
transmit step, starts without an error and raises HardwareError alone. -/
theorem exec_frame_of_validation_error {i : Instr} {s t : State} (h : exec i s = .next t) (hk : t.errKind ≠ none)
    (hhw : t.errKind ≠ some .hardwareError) :
    t = { s with errKind := t.errKind, errCause := t.errCause, errIdx := t.errIdx } := by
  rcases exec_cases h with ⟨e, he, rfl⟩ | ⟨hz, r, -, -, rfl⟩ | ⟨f, o, -, -, rfl⟩ | ⟨f, pl, -, -, ht⟩ |
    ⟨f, o, -, -, ht⟩ | ⟨-, rfl⟩
  · exact raise_accept_frame he s
  · exact absurd rfl hk
  · exact absurd rfl hk
  · exact ((transmit_errKind ht).elim hk hhw).elim
  · exact ((transmit_errKind ht).elim hk hhw).elim
  · rfl

/-- Settles O45: a legal command word is run without its frame, and an illegal one is accepted and raises BAD_OPCODE. -/
theorem validationErrorsArePrecise : Obligations.ValidationErrorsArePrecise := by
  intro s t cw rest hp h hk hhw
  rcases step_cases h with ⟨hnil, -⟩ | ⟨fr, rest', i, hp', -, hx⟩ | ⟨fr, rest', e, hp', -, rfl⟩
  · cases hp.symm.trans hnil
  · cases hp.symm.trans hp'
    exact exec_frame_of_validation_error hx hk hhw
  · cases hp.symm.trans hp'
    exact raise_accept_frame (by decide) _

end Sys2Proof.Proofs

/-! PROOFS. The statements of 70_reset_and_hazards.md: what a step does without an instruction (R240, log 2 and log 6), that
no step writes REFFREQ, REFSRC, OUTEN or PWR (R241), and what the chip holds after a HardwareError (R246). -/

namespace Sys2Proof.Proofs

open Sys2Proof Sys2Proof.Machine Sys2Proof.Laws Sys2Proof.Stated

variable {fw pw : Nat}

/-! ### The four registers that reset alone writes (R25 to R28, R241) -/

/-- REFFREQ, REFSRC, OUTEN and PWR. -/
def resetOnlyRegisters (s : State fw pw) : BitVec fw × RefSource × Bool × BitVec pw :=
  (s.refFreq, s.refSrc, s.outEn, s.pwr)

theorem resetOnlyRegisters_eq_iff (s t : State fw pw) :
    resetOnlyRegisters t = resetOnlyRegisters s ↔
      t.refFreq = s.refFreq ∧ t.refSrc = s.refSrc ∧ t.outEn = s.outEn ∧ t.pwr = s.pwr := by
  simp only [resetOnlyRegisters, Prod.mk.injEq]

theorem raise_resetOnlyRegisters (e : Cause) (s : State fw pw) :
    resetOnlyRegisters (raise e s) = resetOnlyRegisters s := by
  simp only [resetOnlyRegisters_eq_iff, raise_refFreq, raise_refSrc, raise_outEn, raise_pwr, and_self]

theorem transmit_resetOnlyRegisters {s t : State fw pw} (h : transmit s = .next t) :
    resetOnlyRegisters t = resetOnlyRegisters s := by
  rw [transmit_frame h]
  rfl

/-- No instruction writes one of the four, in any of the ways it can end. -/
theorem execWith_resetOnlyRegisters {c : Config} {i : Instr} {s t : State fw pw} (h : execWith c i s = .next t) :
    resetOnlyRegisters t = resetOnlyRegisters s := by
  rcases execWith_cases h with ⟨e, -, rfl⟩ | ⟨hz, r, -, -, rfl⟩ | ⟨f, o, -, -, rfl⟩ | ⟨f, pl, -, -, ht⟩ |
    ⟨f, o, -, -, ht⟩ | ⟨-, rfl⟩
  · exact raise_resetOnlyRegisters e (accept s)
  · rfl
  · rfl
  · rw [transmit_resetOnlyRegisters ht]
    rfl
  · rw [transmit_resetOnlyRegisters ht]
    rfl
  · rfl

theorem stepWith_resetOnlyRegisters {c : Config} {s t : State fw pw} (h : stepWith c s = .next t) :
    resetOnlyRegisters t = resetOnlyRegisters s := by
  rcases stepWith_cases h with ⟨-, rfl⟩ | ⟨fr, rest, i, -, -, hx⟩ | ⟨fr, rest, e, -, -, rfl⟩
  · rfl
  · exact execWith_resetOnlyRegisters (s := { s with pending := rest }) hx
  · exact raise_resetOnlyRegisters .badOpcode (accept { s with pending := rest })

/-- Settles O13: each argument of reset fits its register, and no step writes one of the four. -/
theorem resetArgumentsLastForTheWholeLife : Obligations.ResetArgumentsLastForTheWholeLife :=
  ⟨fun _ => ⟨rfl, rfl, rfl, fun hc =>
      ⟨resetWith_refFreq hc, resetWith_stepSize hc, resetWith_outFreq hc, resetWith_pwr hc, hc.ref_pos, hc.step_pos⟩⟩,
    fun _ s t h => (resetOnlyRegisters_eq_iff s t).1 (stepWith_resetOnlyRegisters h),
    fun s t h => (resetOnlyRegisters_eq_iff s t).1 (stepWith_resetOnlyRegisters ((stepWith_decided s).trans h))⟩

/-! ### A step without an instruction (R240, log 2 and log 6) -/

theorem step_of_nothing_presented {s : State} (h : s.pending = []) : step s = .next s := by
  simp only [step, fetch_nil s h, idle_eq]

theorem toNat_indexBits (w : Word) : (slice w 0 3).toNat = w.toNat % 8 := by
  rw [← toNat_and_index_mask, Nat.and_two_pow_sub_one_eq_mod]

theorem indexBits_eq_ofNat (w : Word) : slice w 0 3 = BitVec.ofNat 3 w.toNat := by
  rw [← BitVec.toNat_inj, toNat_indexBits, BitVec.toNat_ofNat]

/-- No row of the opcode table has the index bits 6 or 7 (V3). -/
theorem decode_of_unused_index {w : Word} (h : 6 ≤ w.toNat % 8) :
    decode (.config w) = .error (.badIndex (slice w 0 3)) := by
  rw [← toNat_indexBits] at h
  rcases decode_config_cases w with ⟨hx, -⟩ | ⟨hx, -⟩ | ⟨hx, -⟩ | ⟨hx, -⟩ | ⟨hx, -⟩ | ⟨hx, -⟩ | ⟨-, hd⟩
  case inr.inr.inr.inr.inr.inr => exact hd
  all_goals
    rw [hx] at h
    exact absurd h (by decide)

/-- Settles O9: the port is empty, or the decoder rejects the word for its index. -/
theorem stepWithoutAnInstruction : Obligations.StepWithoutAnInstruction := by
  refine ⟨fun _ => step_of_nothing_presented, fun s w rest hp hw => ?_⟩
  rw [step_of_decode_error hp (decode_of_unused_index hw), execRejected, indexBits_eq_ofNat]

/-! ### The transmit step of a command that ends with HardwareError (R182) -/

/-- The log entries of the words at the indices `is`, all answered `ok`. -/
def okEntriesAt (regs : Vector Word 6) (is : List WordIndex) : List TxEntry :=
  okEntries (is.map fun j => (j, regs[j]))

theorem okEntriesAt_cons (regs : Vector Word 6) (i : WordIndex) (is : List WordIndex) :
    okEntriesAt regs (i :: is) = ⟨i, regs[i], .ok⟩ :: okEntriesAt regs is := rfl

/-- The words that went out before the one at index `i` are those above it (R68). -/
theorem mem_iff_of_txOrder_eq {pre post : List WordIndex} {i : WordIndex} (h : txOrder = pre ++ i :: post)
    (j : WordIndex) : j ∈ pre ↔ i < j := by
  have sorted : txOrder.Pairwise (· > ·) := by decide
  have all : ∀ k : WordIndex, k ∈ txOrder := by decide
  rw [h, List.pairwise_append, List.pairwise_cons] at sorted
  obtain ⟨-, ⟨hpost, -⟩, hpre⟩ := sorted
  constructor
  · exact fun hj => hpre j hj i List.mem_cons_self
  · intro hij
    have hj := all j
    rw [h, List.mem_append, List.mem_cons] at hj
    rcases hj with hj | rfl | hj
    · exact hj
    · exact absurd hij (lt_irrefl _)
    · exact absurd hij (hpost j hj).asymm

/-- A transmit step that ends with HardwareError sent the words above ERRIDX, and then the failed one. -/
theorem transmit_txLog_of_hardwareError {s t : State fw pw} (h : transmit s = .next t) (hs : s.errKind = none)
    (hk : t.errKind = some .hardwareError) :
    ∃ (pre post : List WordIndex) (i : WordIndex), txOrder = pre ++ i :: post ∧ t.errIdx = BitVec.ofNat 3 i ∧
      t.txLog = s.txLog ++ okEntriesAt t.regs pre ++ [⟨i, t.regs[i], .fail⟩] := by
  rcases transmit_cases h with ⟨rs, d, rfl⟩ | ⟨pre, i, post, rs, d, horder, rfl⟩
  · cases hs.symm.trans hk
  · exact ⟨pre, post, i, horder, rfl, rfl⟩

/-- A frequency-set command that ends with HardwareError reached its transmit step, without an error and with TXLOG as it
was. -/
theorem exec_transmits_of_hardwareError {i : Instr} {s t : State} (hi : isSet i) (h : exec i s = .next t)
    (hk : t.errKind = some .hardwareError) : ∃ u, transmit u = .next t ∧ u.errKind = none ∧ u.txLog = s.txLog := by
  rcases exec_cases h with ⟨e, he, rfl⟩ | ⟨hz, r, rfl, -, -⟩ | ⟨f, o, rfl, -, -⟩ | ⟨f, pl, -, -, ht⟩ |
    ⟨f, o, -, -, ht⟩ | ⟨⟨w, hw⟩, -⟩
  · simp [kind_eq_hardwareError_iff, he] at hk
  · exact hi.elim
  · exact hi.elim
  · exact ⟨_, ht, rfl, rfl⟩
  · exact ⟨_, ht, rfl, rfl⟩
  · exact absurd hi (not_isSet_of_encode_config hw)

/-! ### The chip after a failed transmit step (R66, R246) -/

/-- A successful write of any word but word 0 is held, and nothing else changes at the chip. -/
theorem absorb_ok_of_ne_zero (ch : Chip) {i : WordIndex} (hi : i ≠ 0) (v : Word) :
    ch.absorb ⟨i, v, .ok⟩ = { ch with held := ch.held.set i (some v) } := by
  simp only [Chip.absorb, if_neg hi]

theorem foldl_absorb_okEntriesAt_held (ch : Chip) (regs : Vector Word 6) (is : List WordIndex) (j : WordIndex) :
    ((okEntriesAt regs is).foldl Chip.absorb ch).held[j] = if j ∈ is then some regs[j] else ch.held[j] := by
  induction is generalizing ch with
  | nil => rfl
  | cons i is ih =>
    rw [okEntriesAt_cons, List.foldl_cons, ih, absorb_ok_held]
    by_cases hij : i = j
    · subst hij
      simp
    · have hne : (i : Nat) ≠ j := fun h => hij (Fin.ext h)
      simp [hne, Ne.symm hij]

/-- Without word 0 nothing takes effect. -/
theorem foldl_absorb_okEntriesAt_effective (ch : Chip) (regs : Vector Word 6) {is : List WordIndex} (h : 0 ∉ is) :
    ((okEntriesAt regs is).foldl Chip.absorb ch).effective = ch.effective ∧
      ((okEntriesAt regs is).foldl Chip.absorb ch).inDoubt = ch.inDoubt := by
  induction is generalizing ch with
  | nil => exact ⟨rfl, rfl⟩
  | cons i is ih =>
    obtain ⟨hi, his⟩ := List.ne_and_not_mem_of_not_mem_cons h
    rw [okEntriesAt_cons, List.foldl_cons, absorb_ok_of_ne_zero ch hi.symm]
    exact ih _ his

/-- After a TXLOG that goes on with the words above index `k`, answered `ok`, and the failed one at `k`, the chip holds the
former and does not know the latter, and what is in effect is what was. -/
theorem chipAfter_failed {before log : List TxEntry} {regs : Vector Word 6} {v : Word} {pre post : List WordIndex}
    {k : WordIndex} (horder : txOrder = pre ++ k :: post)
    (hlog : log = before ++ okEntriesAt regs pre ++ [⟨k, v, .fail⟩]) :
    (chipAfter log).effective = (chipAfter before).effective ∧
    ((chipAfter log).inDoubt = ((chipAfter before).inDoubt || decide (k = 0))) ∧
    ∀ j : WordIndex,
      ((k : Nat) < j → (chipAfter log).held[j] = some regs[j]) ∧
      ((k : Nat) = j → (chipAfter log).held[j] = none) ∧
      ((j : Nat) < k → (chipAfter log).held[j] = (chipAfter before).held[j]) := by
  have above := mem_iff_of_txOrder_eq horder
  have held := foldl_absorb_okEntriesAt_held (chipAfter before) regs pre
  obtain ⟨heffective, hdoubt⟩ := foldl_absorb_okEntriesAt_effective (chipAfter before) regs
    fun h0 => Fin.not_lt_zero k ((above 0).1 h0)
  rw [hlog, chipAfter_append, chipAfter_append, List.foldl_cons, List.foldl_nil, absorb_fail_held]
  refine ⟨heffective, congrArg (· || decide (k = 0)) hdoubt, fun j => ⟨fun hkj => ?_, fun hkj => ?_, fun hjk => ?_⟩⟩
  · exact (Vector.getElem_set_ne _ _ hkj.ne).trans ((held j).trans (if_pos ((above j).2 hkj)))
  · obtain rfl := Fin.ext hkj
    exact Vector.getElem_set_self ..
  · exact (Vector.getElem_set_ne _ _ hjk.ne').trans ((held j).trans (if_neg fun hj => hjk.asymm ((above j).1 hj)))

/-- Settles O48: the words above ERRIDX arrive without word 0 among them, and then the failed one. -/
theorem failedSetLeavesTheOldConfigurationInEffect : Obligations.FailedSetLeavesTheOldConfigurationInEffect := by
  intro i s t before arrived hi h hk hbefore harrived
  obtain rfl : before = s.txLog := hbefore
  obtain rfl : arrived = t.txLog := harrived
  obtain ⟨u, ht, hu, hlog⟩ := exec_transmits_of_hardwareError hi h hk
  obtain ⟨pre, post, k, horder, hidx, htlog⟩ := transmit_txLog_of_hardwareError ht hu hk
  have hzero : ∀ k : WordIndex, BitVec.ofNat 3 k = 0 ↔ k = 0 := by decide
  have htoNat : (BitVec.ofNat 3 (k : Nat)).toNat = k := toNat_ofNat_of_lt (k.isLt.trans (by decide))
  simp only [hidx, hzero, htoNat]
  rw [hlog] at htlog
  exact chipAfter_failed horder htlog

end Sys2Proof.Proofs

/-! PROOFS. The statement of 95_test_vectors.md on the words of sections 2.5, 2.7 and 3: a frame decodes to the well-formed
instruction whose encoding it is, so each word is checked by encoding what it stands for. -/

namespace Sys2Proof.Proofs

open Sys2Proof

/-- The decoder is the inverse of the encoder on well-formed instructions (R80, R90): O1 and O2 as one equivalence. -/
theorem decode_eq_ok_iff {fr : Frame} {i : Instr} : decode fr = .ok i ↔ encode i = fr ∧ i.wf = true := by
  constructor
  · exact everyDecodedFrameEncodesBack fr i
  · rintro ⟨rfl, hwf⟩
    exact everyWellFormedInstructionDecodesBack i hwf

/-- Settles O6: each of the six instructions fits its fields, and its encoding is the word of the test vectors. -/
theorem wordsOfTheTestVectorsDecode : Obligations.WordsOfTheTestVectorsDecode := by
  unfold Obligations.WordsOfTheTestVectorsDecode
  simp only [decode_eq_ok_iff]
  decide

end Sys2Proof.Proofs
